-- ==== Sys2Proof/Word.lean ====
section
/-! DEFINITION. The word: a signed integer of `W` bits (`00_scope.md` rules R6 and R13).

The spec's values are mathematical integers, checked against the range of the width before they are
stored.  Nothing in the machine masks, shifts or slices a word (rule R15), so a word is an `Int`
throughout, and the range of a width is a predicate (log 1). -/

namespace Sys2Proof

/-- The legal word widths (rule R6: `W ∈ {32, 64}`). -/
inductive Width where
  | w32
  | w64
  deriving DecidableEq, Repr

/-- `W` itself. -/
def Width.bits : Width → Nat
  | .w32 => 32
  | .w64 => 64

/-- `-2^(W-1)`, the least representable word. -/
def Width.minWord : Width → Int
  | .w32 => -2147483648
  | .w64 => -9223372036854775808

/-- `2^(W-1) - 1`, the greatest representable word. -/
def Width.maxWord : Width → Int
  | .w32 => 2147483647
  | .w64 => 9223372036854775807

/-- A value is representable when it lies in `[-2^(W-1), 2^(W-1)-1]` (rule R13). -/
abbrev Width.Representable (w : Width) (v : Int) : Prop :=
  w.minWord ≤ v ∧ v ≤ w.maxWord

end Sys2Proof
end

