-- ==== Sys2Proof/Config.lean ====
section
/-! DEFINITION. The implementation parameters of `00_scope.md` section 3, and the one value of the
host interface that the spec leaves open. -/

namespace Sys2Proof

/-- The parameters fixed for one block (rules R6, R7, R9, R10, R11).  `feedback` (rule R12) is not
here: it is given with each network start and is state. -/
structure Params where
  /-- `W` (rule R6). -/
  width : Width
  /-- `N`, the number of VM instances (rule R7). -/
  n : Nat
  /-- `MEM_CAP`, the longest program image LOAD accepts (rule R9). -/
  memCap : Nat
  /-- `Q_CAP`, the capacity of each channel queue; `none` is `∞` (rule R10). -/
  qCap : Option Nat
  /-- `YIELD_ON_OUTPUT` (rule R11). -/
  yieldOnOutput : Bool
  deriving DecidableEq, Repr

/-- The legal values: `N ≥ 1` (rule R7), `MEM_CAP ≤ 2^(W-1) - 1` (rule R9), and `Q_CAP` infinite or
at least 2 (rule R10 and decision D14). -/
abbrev Params.Legal (p : Params) : Prop :=
  1 ≤ p.n ∧ (p.memCap : Int) ≤ p.width.maxWord ∧ ∀ c ∈ p.qCap, 2 ≤ c

/-- The default block: `W = 64`, `N = 5`, `Q_CAP = ∞`, `YIELD_ON_OUTPUT = false` (rules R6, R7, R10,
R11).  `MEM_CAP` has no default.  DESIGN CHOICE (log 3): the greatest legal value. -/
def Config.defaults : Params where
  width := .w64
  n := 5
  memCap := 9223372036854775807
  qCap := none
  yieldOnOutput := false

/-- A free value.  With `N > 32` the STATUS index ranges `32 + i` and `64 + 8i + j` of rule R36
overlap, and the spec does not say which field such an index names: `true` picks the VM field
(log 12). -/
opaque Config.statusOverlapNamesVm : Nat → Bool

end Sys2Proof
end

