-- ==== Sys2Proof/Syntax.lean ====
section
/-! DEFINITION. The instruction set: the nine opcodes of `30_encoding.md` rule R62 with the two
parameter modes of rule R58, and no other (`00_scope.md` rules R1 and R4). -/

namespace Sys2Proof

/-- Parameter modes (rule R58). -/
inductive Mode where
  /-- Mode digit 0: the operand is an address, dereferenced once. -/
  | position
  /-- Mode digit 1: the operand is the literal value. -/
  | immediate
  deriving DecidableEq, Repr

/-- One instruction with its mode digits and its parameter words (rules R53 to R55 and R64).
`m k` is the mode of parameter `k` and `p k` is parameter word `k`.  The mode of a write target has no
effect (rule R60), but it is part of the instruction word, so it is kept. -/
inductive Instr where
  /-- ADD, opcode 1, parameters `V V T` (rule R87). -/
  | add (m0 m1 m2 : Mode) (p0 p1 p2 : Int)
  /-- MUL, opcode 2, parameters `V V T` (rule R88). -/
  | mul (m0 m1 m2 : Mode) (p0 p1 p2 : Int)
  /-- IN, opcode 3, parameter `T` (rule R91). -/
  | inp (m0 : Mode) (p0 : Int)
  /-- OUT, opcode 4, parameter `V` (rule R92). -/
  | out (m0 : Mode) (p0 : Int)
  /-- JT, opcode 5, parameters `V J` (rule R94). -/
  | jt (m0 m1 : Mode) (p0 p1 : Int)
  /-- JF, opcode 6, parameters `V J` (rule R95). -/
  | jf (m0 m1 : Mode) (p0 p1 : Int)
  /-- LT, opcode 7, parameters `V V T` (rule R89). -/
  | lt (m0 m1 m2 : Mode) (p0 p1 p2 : Int)
  /-- EQ, opcode 8, parameters `V V T` (rule R90). -/
  | eq (m0 m1 m2 : Mode) (p0 p1 p2 : Int)
  /-- HALT, opcode 99, no parameter (rule R96). -/
  | halt
  deriving DecidableEq, Repr

/-- The parameter words in order. -/
def Instr.params : Instr → List Int
  | .add _ _ _ p0 p1 p2 | .mul _ _ _ p0 p1 p2 | .lt _ _ _ p0 p1 p2 | .eq _ _ _ p0 p1 p2 => [p0, p1, p2]
  | .jt _ _ p0 p1 | .jf _ _ p0 p1 => [p0, p1]
  | .inp _ p0 | .out _ p0 => [p0]
  | .halt => []

/-- The length in words, `1 + n(opcode)` (rule R54). -/
def Instr.length (i : Instr) : Nat := 1 + i.params.length

/-! ## Pseudo-instructions (rule R68) -/

/-- `JMP #t`, the words `1105, 1, t`. -/
def Instr.jmp (t : Int) : Instr := .jt .immediate .immediate 1 t

/-- `JMP [a]`, the words `105, 1, a`. -/
def Instr.jmpAt (a : Int) : Instr := .jt .immediate .position 1 a

/-- `MOV v, [a]`, which is `ADD v, #0, [a]`, with `v` in mode `m`. -/
def Instr.mov (m : Mode) (v a : Int) : Instr := .add m .immediate .position v 0 a

end Sys2Proof
end

