-- ==== Sys2Proof/WellFormed.lean ====
section
/-! DEFINITION. When an instruction term stands for words a memory can hold. -/

namespace Sys2Proof

/-- Every parameter word is representable in the block's width (`00_scope.md` rule R13,
`30_encoding.md` rule R64).  Opcode and modes need no check: a term has no illegal ones. -/
def Instr.wellFormed (w : Width) (i : Instr) : Bool :=
  i.params.all fun p => decide (w.Representable p)

end Sys2Proof
end

