-- ==== Sys2Proof/Decode.lean ====
section
/-! DEFINITION. The instruction decoder and the encoder (`30_encoding.md`).

An instruction is a sequence of memory words whose first word is split by decimal digits, not bits
(rule R53).  The decoder reads the words from the instruction pointer on and either answers the
instruction with the words that follow it, or rejects by name. -/

namespace Sys2Proof

/-! ## The opcode map (rule R62) -/

/-- What a parameter is for (rule R62). -/
inductive Role where
  /-- `V`, a value operand. -/
  | value
  /-- `T`, a write target. -/
  | target
  /-- `J`, a jump target. -/
  | jump
  deriving DecidableEq, Repr

/-- The mnemonics of rule R62, and the two pseudo-instructions of rule R68. -/
inductive Mnemonic where
  | add
  | mul
  | inp
  | out
  | jt
  | jf
  | lt
  | eq
  | halt
  | jmp
  | mov
  deriving DecidableEq, Repr

/-- One row of the opcode map. -/
structure OpRow where
  opcode : Int
  mnemonic : Mnemonic
  roles : List Role
  deriving DecidableEq, Repr

/-- The complete opcode map of rule R62. -/
def opTable : List OpRow :=
  [⟨1, .add, [.value, .value, .target]⟩, ⟨2, .mul, [.value, .value, .target]⟩,
   ⟨3, .inp, [.target]⟩, ⟨4, .out, [.value]⟩,
   ⟨5, .jt, [.value, .jump]⟩, ⟨6, .jf, [.value, .jump]⟩,
   ⟨7, .lt, [.value, .value, .target]⟩, ⟨8, .eq, [.value, .value, .target]⟩,
   ⟨99, .halt, []⟩]

/-- The roles of the opcode's parameters, if the opcode is in the map. -/
def rolesOf (op : Int) : Option (List Role) :=
  (opTable.find? fun r => decide (r.opcode = op)).map OpRow.roles

/-! ## Splitting the instruction word (rule R56) -/

/-- `10^k`. -/
def pow10 : Nat → Int
  | 0 => 1
  | k + 1 => 10 * pow10 k

/-- `opcode = word rem 100`, with the truncating remainder of `00_scope.md` rule R14. -/
def opcodeOf (w : Int) : Int := w.tmod 100

/-- `mode_k = (word div 10^(2+k)) rem 10`. -/
def modeDigit (k : Nat) (w : Int) : Int := (w.tdiv (pow10 (2 + k))).tmod 10

/-- What rule R56's `decode` answers. -/
structure Fields where
  opcode : Int
  mode0 : Int
  mode1 : Int
  mode2 : Int
  deriving DecidableEq, Repr

/-- `decode(word)` of rule R56: a pure, total function of the word (rule R57). -/
def decodeFields (w : Int) : Fields :=
  ⟨opcodeOf w, modeDigit 0 w, modeDigit 1 w, modeDigit 2 w⟩

/-- `encode(op, m_0, m_1, m_2)` of rule R63. -/
def encodeFields (f : Fields) : Int :=
  f.opcode + 100 * f.mode0 + 1000 * f.mode1 + 10000 * f.mode2

/-- `valid(w)` of rule R59: non-negative, an opcode of the map, every mode digit the opcode has 0 or 1,
and every digit above them 0. -/
def validWord (w : Int) : Bool :=
  decide (0 ≤ w) &&
    match rolesOf (opcodeOf w) with
    | none => false
    | some roles =>
      (List.range roles.length).all (fun k => decide (modeDigit k w = 0 ∨ modeDigit k w = 1)) &&
        decide (w.tdiv (pow10 (2 + roles.length)) = 0)

/-- The mode a valid mode digit stands for (rule R58). -/
def modeOfDigit (d : Int) : Mode := if d = 0 then .position else .immediate

/-- The mode of parameter `k` of a valid word. -/
def modeOf (k : Nat) (w : Int) : Mode := modeOfDigit (modeDigit k w)

/-! ## Decoding -/

/-- Why the decoder rejects. -/
inductive Reject where
  /-- There is no instruction word. -/
  | noWord
  /-- The instruction word is not one of the 45 valid words (rule R65). -/
  | illegalWord (w : Int)
  /-- The words end before parameter `k` (`40_execution_engine.md` rule R72). -/
  | missingParameter (k : Nat)
  deriving DecidableEq, Repr

/-- Takes one parameter word. -/
def takeOne (mk : Int → Instr) : List Int → Except Reject (Instr × List Int)
  | p0 :: rest => .ok (mk p0, rest)
  | [] => .error (.missingParameter 0)

/-- Takes two parameter words; a rejection names the first that is missing. -/
def takeTwo (mk : Int → Int → Instr) : List Int → Except Reject (Instr × List Int)
  | p0 :: p1 :: rest => .ok (mk p0 p1, rest)
  | ps => .error (.missingParameter ps.length)

/-- Takes three parameter words; a rejection names the first that is missing. -/
def takeThree (mk : Int → Int → Int → Instr) : List Int → Except Reject (Instr × List Int)
  | p0 :: p1 :: p2 :: rest => .ok (mk p0 p1 p2, rest)
  | ps => .error (.missingParameter ps.length)

/-- The instruction a valid word `w` begins, with its parameter words taken from `rest`. -/
def decodeParams (w : Int) (rest : List Int) : Except Reject (Instr × List Int) :=
  if opcodeOf w = 1 then takeThree (.add (modeOf 0 w) (modeOf 1 w) (modeOf 2 w)) rest
  else if opcodeOf w = 2 then takeThree (.mul (modeOf 0 w) (modeOf 1 w) (modeOf 2 w)) rest
  else if opcodeOf w = 3 then takeOne (.inp (modeOf 0 w)) rest
  else if opcodeOf w = 4 then takeOne (.out (modeOf 0 w)) rest
  else if opcodeOf w = 5 then takeTwo (.jt (modeOf 0 w) (modeOf 1 w)) rest
  else if opcodeOf w = 6 then takeTwo (.jf (modeOf 0 w) (modeOf 1 w)) rest
  else if opcodeOf w = 7 then takeThree (.lt (modeOf 0 w) (modeOf 1 w) (modeOf 2 w)) rest
  else if opcodeOf w = 8 then takeThree (.eq (modeOf 0 w) (modeOf 1 w) (modeOf 2 w)) rest
  else if opcodeOf w = 99 then .ok (.halt, rest)
  else .error (.illegalWord w)

/-- Decodes the instruction at the head of a list of words (rules R56, R59 and R72). -/
def decode : List Int → Except Reject (Instr × List Int)
  | [] => .error .noWord
  | w :: rest => if validWord w then decodeParams w rest else .error (.illegalWord w)

/-! ## Encoding (rules R55 and R63) -/

/-- The mode's digit (rule R58). -/
def Mode.digit : Mode → Int
  | .position => 0
  | .immediate => 1

/-- The opcode and the mode digits, `m_k = 0` for the parameters the opcode does not have. -/
def Instr.fields : Instr → Fields
  | .add m0 m1 m2 _ _ _ => ⟨1, m0.digit, m1.digit, m2.digit⟩
  | .mul m0 m1 m2 _ _ _ => ⟨2, m0.digit, m1.digit, m2.digit⟩
  | .inp m0 _ => ⟨3, m0.digit, 0, 0⟩
  | .out m0 _ => ⟨4, m0.digit, 0, 0⟩
  | .jt m0 m1 _ _ => ⟨5, m0.digit, m1.digit, 0⟩
  | .jf m0 m1 _ _ => ⟨6, m0.digit, m1.digit, 0⟩
  | .lt m0 m1 m2 _ _ _ => ⟨7, m0.digit, m1.digit, m2.digit⟩
  | .eq m0 m1 m2 _ _ _ => ⟨8, m0.digit, m1.digit, m2.digit⟩
  | .halt => ⟨99, 0, 0, 0⟩

/-- The instruction word. -/
def encodeWord (i : Instr) : Int := encodeFields i.fields

/-- The words of an instruction: the instruction word and its parameter words (rule R53). -/
def encode (i : Instr) : List Int := encodeWord i :: i.params

/-! ## The opcode table's numbering of an instruction's bits -/

/-- The signed word whose `W` bits are the low `W` bits of `v` (rule R6: two's complement). -/
def wordOfBits (w : Width) (v : Nat) : Int :=
  let u := v % 2 ^ w.bits
  if u < 2 ^ (w.bits - 1) then (u : Int) else (u : Int) - 2 ^ w.bits

/-- The four words, as many as the longest instruction has, that the low `nbits` bits of `v` lay out:
the first word in the lowest bits. -/
def tableWords (w : Width) (nbits v : Nat) : List Int :=
  (List.range 4).map fun k => wordOfBits w ((v % 2 ^ nbits) >>> (w.bits * k))

/-- The instruction the decoder reads from the bits of an opcode-table row, in the default width. -/
def decodeTableWord (nbits w : Nat) : Option Instr :=
  match decode (tableWords Config.defaults.width nbits w) with
  | .ok (i, _) => some i
  | .error _ => none

/-! ## Assembly form (rule R67), without its text -/

/-- An operand as rule R67 writes it. -/
inductive AsmOperand where
  /-- `#v` -/
  | hash (v : Int)
  /-- `[a]` -/
  | bracket (a : Int)
  deriving DecidableEq, Repr

/-- One line `MNEMONIC operand, operand, …`. -/
structure AsmLine where
  mnemonic : Mnemonic
  operands : List AsmOperand
  deriving DecidableEq, Repr

/-- A value operand or jump target. -/
def AsmOperand.ofMode : Mode → Int → AsmOperand
  | .position, a => .bracket a
  | .immediate, v => .hash v

/-- Disassembly: a write target prints as `[a]` whatever its mode digit. -/
def Instr.disassemble : Instr → AsmLine
  | .add m0 m1 _ p0 p1 p2 => ⟨.add, [.ofMode m0 p0, .ofMode m1 p1, .bracket p2]⟩
  | .mul m0 m1 _ p0 p1 p2 => ⟨.mul, [.ofMode m0 p0, .ofMode m1 p1, .bracket p2]⟩
  | .inp _ p0 => ⟨.inp, [.bracket p0]⟩
  | .out m0 p0 => ⟨.out, [.ofMode m0 p0]⟩
  | .jt m0 m1 p0 p1 => ⟨.jt, [.ofMode m0 p0, .ofMode m1 p1]⟩
  | .jf m0 m1 p0 p1 => ⟨.jf, [.ofMode m0 p0, .ofMode m1 p1]⟩
  | .lt m0 m1 _ p0 p1 p2 => ⟨.lt, [.ofMode m0 p0, .ofMode m1 p1, .bracket p2]⟩
  | .eq m0 m1 _ p0 p1 p2 => ⟨.eq, [.ofMode m0 p0, .ofMode m1 p1, .bracket p2]⟩
  | .halt => ⟨.halt, []⟩

/-- The mode an operand is written in. -/
def AsmOperand.mode : AsmOperand → Mode
  | .hash _ => .immediate
  | .bracket _ => .position

/-- The operand's parameter word. -/
def AsmOperand.word : AsmOperand → Int
  | .hash v => v
  | .bracket a => a

/-- Assembly, pseudo-instructions included (rules R67 and R68): a write target is written `[a]` and
assembles with mode digit 0; any other form of a target, or a wrong number of operands, is no
instruction. -/
def assemble (l : AsmLine) : Option Instr :=
  match l.mnemonic, l.operands with
  | .add, [x, y, .bracket t] => some (.add x.mode y.mode .position x.word y.word t)
  | .mul, [x, y, .bracket t] => some (.mul x.mode y.mode .position x.word y.word t)
  | .lt, [x, y, .bracket t] => some (.lt x.mode y.mode .position x.word y.word t)
  | .eq, [x, y, .bracket t] => some (.eq x.mode y.mode .position x.word y.word t)
  | .inp, [.bracket t] => some (.inp .position t)
  | .out, [x] => some (.out x.mode x.word)
  | .jt, [x, y] => some (.jt x.mode y.mode x.word y.word)
  | .jf, [x, y] => some (.jf x.mode y.mode x.word y.word)
  | .halt, [] => some .halt
  | .jmp, [.hash t] => some (.jmp t)
  | .jmp, [.bracket a] => some (.jmpAt a)
  | .mov, [x, .bracket a] => some (.mov x.mode x.word a)
  | _, _ => none

/-- The instruction with a write target's mode digit set to 0, which is the same instruction
(rule R60). -/
def Instr.canonical : Instr → Instr
  | .add m0 m1 _ p0 p1 p2 => .add m0 m1 .position p0 p1 p2
  | .mul m0 m1 _ p0 p1 p2 => .mul m0 m1 .position p0 p1 p2
  | .lt m0 m1 _ p0 p1 p2 => .lt m0 m1 .position p0 p1 p2
  | .eq m0 m1 _ p0 p1 p2 => .eq m0 m1 .position p0 p1 p2
  | .inp _ p0 => .inp .position p0
  | .out m0 p0 => .out m0 p0
  | .jt m0 m1 p0 p1 => .jt m0 m1 p0 p1
  | .jf m0 m1 p0 p1 => .jf m0 m1 p0 p1
  | .halt => .halt

end Sys2Proof
end

