-- ==== Sys2Proof/Machine/State.lean ====
section
/-! DEFINITION. The state of the block (`10_state.md`), the host's transactions and answers as data
(`45_host_and_search.md`), the reasons a step of the model can stop, and the state after RESET. -/

namespace Sys2Proof.Machine

/-! ## Faults of the hardware, which are states and not stops -/

/-- Fault kinds (`60_exceptions.md` rule R126). -/
inductive ErrKind where
  | none
  | invalidInstruction
  | outOfBounds
  | inputStarved
  | overflow
  | queueOverflow
  deriving DecidableEq, Repr

/-- The error record of a VM, `vm_err` (rule R28). -/
structure VmErr where
  kind : ErrKind
  address : Int
  word : Int
  deriving DecidableEq, Repr

/-- The error record of the orchestrator, `net_err` (rule R34). -/
structure NetErr where
  kind : ErrKind
  address : Int
  word : Int
  vm : Nat
  deriving DecidableEq, Repr

/-! ## One VM -/

/-- Lifecycle states (rule R26). -/
inductive VmState where
  | ready
  | running
  | awaitingInput
  | yielded
  | halted
  | faulted
  | absent
  deriving DecidableEq, Repr

/-- A VM's memory: the sequence of its words, the word at address `a` in place `a` (rules R23, R39,
R40).  Its length is `L`; every address of `[0, L)` holds a word and no other address exists, so there
is no unlisted address to read (log 4). -/
abbrev Memory := List Int

/-- The state of one VM (rules R23 to R30). -/
structure Vm where
  /-- Memory (rule R23). -/
  mem : Memory
  /-- Instruction pointer (rule R24). -/
  ip : Int
  /-- Lifecycle state `vm_state` (rule R26). -/
  state : VmState
  /-- Error record `vm_err` (rule R28). -/
  err : VmErr
  /-- Input queue, oldest first (rule R29). -/
  inQ : List Int
  /-- Output queue, oldest first (rule R30). -/
  outQ : List Int
  deriving DecidableEq, Repr

/-- The fields of an index with no VM, as RESET leaves them (rule R38).  An index whose VM a standalone
START destroys reads the same; the spec gives no such values.  DESIGN CHOICE (log 25). -/
def Vm.absent : Vm where
  mem := []
  ip := 0
  state := .absent
  err := ⟨.none, 0, 0⟩
  inQ := []
  outQ := []

/-! ## Configuration and orchestrator -/

/-- `blk_mode` (rule R33). -/
inductive BlkMode where
  | none
  | standalone
  | network
  deriving DecidableEq, Repr

/-- `net_state` (rule R34). -/
inductive NetState where
  | idle
  | turnSend
  | turnRun
  | turnCollect
  | passEnd
  | done
  | error
  deriving DecidableEq, Repr

/-! ## The host -/

/-- The host's transactions (rule R112). -/
inductive Txn where
  | reset
  | load (seq : List Int)
  | configure (mode : BlkMode) (feedback : Bool) (phase : List Int)
  | start
  | push (v : Int)
  | run
  | pop
  | memread (vm : Nat) (address : Int)
  | status (index : Nat)
  deriving DecidableEq, Repr

/-- What the host does before the next step: a transaction, or nothing, so that a block step happens.
A list of these says where each transaction lands between block steps (rule R112, log 5). -/
inductive HostMove where
  | transaction (t : Txn)
  | blockStep
  deriving DecidableEq, Repr

/-- Why a transaction is refused.  The spec writes `REFUSED(reason)` and gives the preconditions
(rule R112); the names are the model's.  DESIGN CHOICE (log 10). -/
inductive HostRefusal where
  /-- A value that the transaction's type does not admit (decision D29, rule R115). -/
  | illTyped
  /-- The block is busy (rule R113). -/
  | busy
  /-- LOAD of more than `MEM_CAP` words (rule R114). -/
  | imageTooLong
  /-- START with `blk_mode = NONE` (rule R116). -/
  | notConfigured
  /-- PUSH, RUN or POP outside standalone mode. -/
  | notStandalone
  /-- A PUSH, RUN or POP that would change a VM of a network run, an ended one included: in `DONE` and
  `ERROR` VMs and queues stay as they are until START or RESET (rules R103 and R123, log 9). -/
  | networkVms
  /-- PUSH, RUN or POP while `VM[0]` is `Running`. -/
  | vmRunning
  /-- PUSH into a queue that holds `Q_CAP` values. -/
  | queueFull
  /-- RUN or MEMREAD of an index with no VM. -/
  | notConstructed
  /-- MEMREAD outside `[0, L)`. -/
  | addressOutOfRange
  /-- STATUS of an index that names no field (rule R117). -/
  | noSuchField
  deriving DecidableEq, Repr

/-- The value of a status field (rule R36). -/
inductive StatusValue where
  | natural (n : Nat)
  | word (v : Int)
  | flag (b : Bool)
  | params (p : Params)
  deriving DecidableEq, Repr

/-- What a transaction answers (rule R112). -/
inductive HostAnswer where
  /-- `OK` with no result. -/
  | ok
  /-- RUN: `OK(vm_state)` once `run()` has returned. -/
  | ran (state : VmState)
  /-- POP and MEMREAD: `OK(v)`. -/
  | value (v : Int)
  /-- POP of an empty queue: `OK(EMPTY)`. -/
  | empty
  /-- STATUS: `OK(field value)`. -/
  | field (v : StatusValue)
  | refused (r : HostRefusal)
  deriving DecidableEq, Repr

end Sys2Proof.Machine

namespace Sys2Proof.Machine

/-- The state of the block. -/
structure State where
  /-- The parameters, which no step changes (rule R141; log 2). -/
  params : Params
  /-- `blk_mode` (rule R33). -/
  blkMode : BlkMode
  /-- The program image; its length is `L` (rule R32). -/
  prog : List Int
  /-- `feedback` (rules R12 and R33). -/
  feedback : Bool
  /-- `phase[0 .. N-1]` (rule R33). -/
  phase : List Int
  /-- `net_state` (rule R34). -/
  netState : NetState
  /-- `turn` (rule R34). -/
  turn : Nat
  /-- `pass_count` (rule R34). -/
  passCount : Nat
  /-- `signal` (rule R34). -/
  signal : Int
  /-- `sig_valid` (rule R35). -/
  sigValid : Bool
  /-- `result` (rule R34). -/
  result : Int
  /-- `net_err` (rule R34). -/
  netErr : NetErr
  /-- `VM[0] .. VM[N-1]` (rules R23 to R30). -/
  vms : List Vm
  /-- The model's own: the host's coming moves, the next first (log 5). -/
  hostMoves : List HostMove
  /-- The model's own: the answers given to the host, oldest first (log 5). -/
  hostAnswers : List HostAnswer
  deriving DecidableEq, Repr

/-- The reasons a step of the model can stop with a fault.  A fault of the hardware is not among them:
it is a next state in which the VM is `Faulted` (rule R129). -/
inductive Fault where
  /-- Raised by every instruction's meaning executed in a state in which no VM is `Running`; rule R69
  applies a step to a `Running` VM only.  No step of the machine raises it.  Safe. -/
  | noRunningVm
  deriving DecidableEq, Repr

/-- The reasons a step of the model can be refused. -/
inductive Refusal where
  /-- Raised by an arm of `exec` whose instruction has no meaning yet.  Safe.  No arm raises it. -/
  | notModelled (mnemonic : String)
  deriving DecidableEq, Repr

/-- The value of every field after RESET, in a block with the parameters `p` (rule R38). -/
def State.resetWith (p : Params) : State where
  params := p
  blkMode := .none
  prog := []
  feedback := false
  phase := List.replicate p.n 0
  netState := .idle
  turn := 0
  passCount := 0
  signal := 0
  sigValid := false
  result := 0
  netErr := ⟨.none, 0, 0, 0⟩
  vms := List.replicate p.n Vm.absent
  hostMoves := []
  hostAnswers := []

/-- The machine right after RESET, in the default block (rule R38). -/
def State.reset : State := State.resetWith Config.defaults

end Sys2Proof.Machine
end

