-- ==== Sys2Proof/Machine/Ops.lean ====
section
/-! DEFINITION. The named operations over memory, queues and VMs that every instruction and the
orchestrator share, and taking a fault as one of them. -/

namespace Sys2Proof.Machine

/-! ## Memory (`00_scope.md` rule R16) -/

/-- `0 ≤ a < L`. -/
abbrev Memory.InBounds (m : Memory) (a : Int) : Prop := 0 ≤ a ∧ a < (m.length : Int)

/-- The record of `OutOfBounds(a)` (rule R126): the offending address, and no word. -/
def VmErr.outOfBounds (a : Int) : VmErr := ⟨.outOfBounds, a, 0⟩

/-- `MemRead(a, 1)` (rule R16). -/
def Memory.read (m : Memory) (a : Int) : Except VmErr Int :=
  if m.InBounds a then .ok (m.getD a.toNat 0) else .error (.outOfBounds a)

/-- The write of `MemWrite(a, 1, v)` at an address already checked to be in bounds: exactly the one
word it names changes (rules R16 and R44). -/
def Memory.store (m : Memory) (a v : Int) : Memory := m.set a.toNat v

/-- `MemWrite(a, 1, v)` (rule R16). -/
def Memory.write (m : Memory) (a v : Int) : Except VmErr Memory :=
  if m.InBounds a then .ok (m.store a v) else .error (.outOfBounds a)

/-- The form a memory has in a block with the parameters `p`: at most `MEM_CAP` words, each
representable (rules R9 and R13).  A list of words has one form for each memory, so equal memories are
equal data. -/
abbrev Memory.wf (p : Params) (m : Memory) : Prop :=
  m.length ≤ p.memCap ∧ ∀ v ∈ m, p.width.Representable v

/-- The same memory as address and word pairs. -/
def Memory.cells (m : Memory) : List (Nat × Int) := m.zipIdx.map fun c => (c.2, c.1)

/-! ## Queues (`00_scope.md` rule R19) -/

/-- `len(q) = Q_CAP`: the queue can take no further value; never with `Q_CAP = ∞`. -/
def queueFull (cap : Option Nat) (q : List Int) : Bool :=
  match cap with
  | none => false
  | some c => decide (c ≤ q.length)

/-- `Push(q, v)` into a queue that is not full. -/
def push (q : List Int) (v : Int) : List Int := q ++ [v]

/-! ## Taking a fault (`00_scope.md` rule R17, `60_exceptions.md` rule R129) -/

/-- `raise`: the lifecycle state becomes `Faulted` and the error record is written; memory, `ip` and
both queues stay.  There is no return from a fault (rule R130), so no operation stands beside it. -/
def Vm.raise (vm : Vm) (e : VmErr) : Vm := { vm with state := .faulted, err := e }

/-- How an instruction ends: with all its effects, or with a fault and none of them (rule R69). -/
def Vm.settle (vm : Vm) : Except VmErr Vm → Vm
  | .ok vm' => vm'
  | .error e => vm.raise e

/-! ## A VM's life -/

/-- Construction from the program image (rules R32 and R142). -/
def Vm.construct (prog : List Int) : Vm := { Vm.absent with mem := prog, state := .ready }

/-- A `run()` call: a `Ready`, `AwaitingInput` or `Yielded` VM becomes `Running` (rule R78); on any
other VM it changes nothing (rule R81). -/
def Vm.call (vm : Vm) : Vm :=
  match vm.state with
  | .ready | .awaitingInput | .yielded => { vm with state := .running }
  | _ => vm

/-- Writes the result word of an instruction to its target and advances `ip` by the stride. -/
def Vm.storeAndAdvance (vm : Vm) (target v stride : Int) : Vm :=
  { vm with mem := vm.mem.store target v, ip := vm.ip + stride }

/-! ## The VMs of the block -/

/-- `VM[i]`; an index outside `[0, N)` names no VM. -/
def State.vm (s : State) (i : Nat) : Vm := s.vms.getD i Vm.absent

/-- Replaces `VM[i]`. -/
def State.setVm (s : State) (i : Nat) (vm : Vm) : State := { s with vms := s.vms.set i vm }

/-- A network run is in progress (rule R113). -/
def State.netBusy (s : State) : Bool :=
  match s.netState with
  | .turnSend | .turnRun | .turnCollect | .passEnd => true
  | .idle | .done | .error => false

/-- The VM that the next block step executes, if there is one: `VM[turn]` of a network run in
`TURN_RUN` (rule R100), or `VM[0]` in standalone mode (rule R121), when it is `Running`.  In `DONE` and
`ERROR` no block step applies, so no VM executes (rule R103). -/
def State.active (s : State) : Option Nat :=
  match s.netState with
  | .turnRun => if (s.vm s.turn).state = .running then some s.turn else none
  | .idle => if s.blkMode = .standalone ∧ (s.vm 0).state = .running then some 0 else none
  | .turnSend | .turnCollect | .passEnd | .done | .error => none

/-- Records an answer to the host. -/
def State.answer (s : State) (a : HostAnswer) : State := { s with hostAnswers := s.hostAnswers ++ [a] }

/-- Puts the VM that has just executed an instruction back.  Outside a network run, a VM that is no
longer `Running` has returned from the `run()` of the host's RUN transaction, which is answered with
the new lifecycle state (rules R79 and R121; log 7). -/
def State.commitVm (s : State) (k : Nat) (vm : Vm) : State :=
  if s.netState = .turnRun ∨ vm.state = .running then s.setVm k vm
  else (s.setVm k vm).answer (.ran vm.state)

/-- Executes one instruction's effect on the active VM (rules R69 and R76). -/
def State.onActive (s : State) (effect : Params → Vm → Except VmErr Vm) :
    Host.Outcome State Fault Refusal :=
  match s.active with
  | none => .fault .noRunningVm
  | some k => .next (s.commitVm k ((s.vm k).settle (effect s.params (s.vm k))))

/-! ## Fetch (`40_execution_engine.md` rules R70 to R72) -/

/-- The fault the VM raises where the decoder rejects the words at `ip`. -/
def rejectErr (ip : Int) : Reject → VmErr
  | .noWord => .outOfBounds ip
  | .illegalWord w => ⟨.invalidInstruction, ip, w⟩
  | .missingParameter k => .outOfBounds (ip + 1 + k)

/-- Reads and decodes the instruction at `ip`: the words of memory from `ip` on go to the decoder. -/
def Vm.fetch (vm : Vm) : Except VmErr Instr :=
  if vm.mem.InBounds vm.ip then
    match decode (vm.mem.drop vm.ip.toNat) with
    | .ok (i, _) => .ok i
    | .error r => .error (rejectErr vm.ip r)
  else .error (.outOfBounds vm.ip)

end Sys2Proof.Machine
end

