-- ==== Sys2Proof/Machine/Operands.lean ====
section
/-! DEFINITION. Operand resolution (`40_execution_engine.md` rules R73 to R75). -/

namespace Sys2Proof.Machine

/-- `val(k)` of a parameter with role `V` or `J` (rules R61 and R73): position mode dereferences the
parameter word once, immediate mode takes it as it stands. -/
def operand (m : Memory) : Mode → Int → Except VmErr Int
  | .position, p => m.read p
  | .immediate, p => .ok p

/-- `tgt(k)` of a parameter with role `T` (rule R74): an address whatever its mode digit, checked
before the instruction computes anything. -/
def target (m : Memory) (p : Int) : Except VmErr Int :=
  if m.InBounds p then .ok p else .error (.outOfBounds p)

/-- Resolves the parameters `V V T` in ascending order; the first check that fails raises its fault
(rule R75). -/
def resolveVVT (m : Memory) (m0 m1 : Mode) (p0 p1 p2 : Int) : Except VmErr (Int × Int × Int) :=
  (operand m m0 p0).bind fun a => (operand m m1 p1).bind fun b => (target m p2).bind fun t => .ok (a, b, t)

/-- Resolves the parameters `V J` in ascending order (rule R75). -/
def resolveVJ (m : Memory) (m0 m1 : Mode) (p0 p1 : Int) : Except VmErr (Int × Int) :=
  (operand m m0 p0).bind fun a => (operand m m1 p1).bind fun b => .ok (a, b)

end Sys2Proof.Machine
end

