-- ==== Sys2Proof/Machine/Flags.lean ====
section
/-! DEFINITION. The conditions instructions compute.  The VM has no flags (`10_state.md` rule R22): an
overflow is a fault, and a comparison result is a word. -/

namespace Sys2Proof.Machine

/-- A sum or product computed exactly: the result when it is representable, otherwise
`Overflow(ip, w)` (`41_arithmetic.md` rule R86). -/
def checkedResult (width : Width) (ip w r : Int) : Except VmErr Int :=
  if width.Representable r then .ok r else .error ⟨.overflow, ip, w⟩

/-- A comparison result stored in memory is the integer 1 or 0 (`00_scope.md` rule R13). -/
def truthWord (p : Prop) [Decidable p] : Int := if p then 1 else 0

end Sys2Proof.Machine
end

