-- ==== Sys2Proof/Machine/Arithmetic.lean ====
section
/-! DEFINITION. ADD, MUL, LT and EQ (`41_arithmetic.md`).  Each has its effect on a VM, and its meaning
as an instruction of the block. -/

namespace Sys2Proof.Machine

/-- The shape the four instructions share: resolve `V V T`, compute the result, store it and advance
`ip` by 4.  All reads and checks precede the write (rules R75 and R145). -/
def storeResultEffect (m0 m1 : Mode) (p0 p1 p2 : Int) (compute : Int → Int → Except VmErr Int)
    (vm : Vm) : Except VmErr Vm :=
  (resolveVVT vm.mem m0 m1 p0 p1 p2).bind fun x =>
    (compute x.1 x.2.1).bind fun r => .ok (vm.storeAndAdvance x.2.2 r 4)

/-- ADD (rule R87). -/
def addEffect (m0 m1 m2 : Mode) (p0 p1 p2 : Int) (p : Params) (vm : Vm) : Except VmErr Vm :=
  storeResultEffect m0 m1 p0 p1 p2
    (fun a b => checkedResult p.width vm.ip (encodeWord (.add m0 m1 m2 p0 p1 p2)) (a + b)) vm

/-- MUL (rule R88). -/
def mulEffect (m0 m1 m2 : Mode) (p0 p1 p2 : Int) (p : Params) (vm : Vm) : Except VmErr Vm :=
  storeResultEffect m0 m1 p0 p1 p2
    (fun a b => checkedResult p.width vm.ip (encodeWord (.mul m0 m1 m2 p0 p1 p2)) (a * b)) vm

/-- LT (rule R89): a signed comparison, which cannot overflow. -/
def ltEffect (m0 m1 : Mode) (p0 p1 p2 : Int) (vm : Vm) : Except VmErr Vm :=
  storeResultEffect m0 m1 p0 p1 p2 (fun a b => .ok (truthWord (a < b))) vm

/-- EQ (rule R90). -/
def eqEffect (m0 m1 : Mode) (p0 p1 p2 : Int) (vm : Vm) : Except VmErr Vm :=
  storeResultEffect m0 m1 p0 p1 p2 (fun a b => .ok (truthWord (a = b))) vm

/-- ADD on the active VM. -/
def execAdd (m0 m1 m2 : Mode) (p0 p1 p2 : Int) (s : State) : Host.Outcome State Fault Refusal :=
  s.onActive (addEffect m0 m1 m2 p0 p1 p2)

/-- MUL on the active VM. -/
def execMul (m0 m1 m2 : Mode) (p0 p1 p2 : Int) (s : State) : Host.Outcome State Fault Refusal :=
  s.onActive (mulEffect m0 m1 m2 p0 p1 p2)

/-- LT on the active VM.  The target's mode has no effect (rule R60). -/
def execLt (m0 m1 _m2 : Mode) (p0 p1 p2 : Int) (s : State) : Host.Outcome State Fault Refusal :=
  s.onActive fun _ => ltEffect m0 m1 p0 p1 p2

/-- EQ on the active VM.  The target's mode has no effect (rule R60). -/
def execEq (m0 m1 _m2 : Mode) (p0 p1 p2 : Int) (s : State) : Host.Outcome State Fault Refusal :=
  s.onActive fun _ => eqEffect m0 m1 p0 p1 p2

end Sys2Proof.Machine
end

