-- ==== Sys2Proof/Machine/Control.lean ====
section
/-! DEFINITION. JT, JF and HALT (`43_control.md`). -/

namespace Sys2Proof.Machine

/-- The shape JT and JF share: both parameters are resolved, whether the jump is taken or not; a taken
jump writes the resolved target into `ip` unchecked (rule R93). -/
def jumpEffect (m0 m1 : Mode) (p0 p1 : Int) (taken : Int → Bool) (vm : Vm) : Except VmErr Vm :=
  (resolveVJ vm.mem m0 m1 p0 p1).bind fun x =>
    .ok { vm with ip := if taken x.1 then x.2 else vm.ip + 3 }

/-- JT (rule R94): any non-zero condition takes the jump. -/
def jtEffect (m0 m1 : Mode) (p0 p1 : Int) (vm : Vm) : Except VmErr Vm :=
  jumpEffect m0 m1 p0 p1 (fun c => decide (c ≠ 0)) vm

/-- JF (rule R95): only the condition 0 takes the jump. -/
def jfEffect (m0 m1 : Mode) (p0 p1 : Int) (vm : Vm) : Except VmErr Vm :=
  jumpEffect m0 m1 p0 p1 (fun c => decide (c = 0)) vm

/-- HALT (rule R96): `ip` keeps the address of the 99. -/
def haltEffect (vm : Vm) : Except VmErr Vm := .ok { vm with state := .halted }

/-- JT on the active VM. -/
def execJt (m0 m1 : Mode) (p0 p1 : Int) (s : State) : Host.Outcome State Fault Refusal :=
  s.onActive fun _ => jtEffect m0 m1 p0 p1

/-- JF on the active VM. -/
def execJf (m0 m1 : Mode) (p0 p1 : Int) (s : State) : Host.Outcome State Fault Refusal :=
  s.onActive fun _ => jfEffect m0 m1 p0 p1

/-- HALT on the active VM. -/
def execHalt (s : State) : Host.Outcome State Fault Refusal :=
  s.onActive fun _ => haltEffect

end Sys2Proof.Machine
end

