-- ==== Sys2Proof/Machine/InputOutput.lean ====
section
/-! DEFINITION. IN and OUT (`42_io.md`). -/

namespace Sys2Proof.Machine

/-- IN (rule R91): the target is checked first; an empty queue is the suspension point, where nothing
changes but the lifecycle state; otherwise the oldest value is taken and stored. -/
def inEffect (p0 : Int) (vm : Vm) : Except VmErr Vm :=
  (target vm.mem p0).bind fun t =>
    match vm.inQ with
    | [] => .ok { vm with state := .awaitingInput }
    | v :: rest => .ok { vm.storeAndAdvance t v 2 with inQ := rest }

/-- OUT (rule R92): a full queue faults; otherwise the value is appended, and the VM yields when
`YIELD_ON_OUTPUT` is set (rule R79). -/
def outEffect (m0 : Mode) (p0 : Int) (p : Params) (vm : Vm) : Except VmErr Vm :=
  (operand vm.mem m0 p0).bind fun v =>
    if queueFull p.qCap vm.outQ then .error ⟨.queueOverflow, vm.ip, encodeWord (.out m0 p0)⟩
    else .ok { vm with
      outQ := push vm.outQ v
      ip := vm.ip + 2
      state := if p.yieldOnOutput then .yielded else vm.state }

/-- IN on the active VM.  The target's mode has no effect (rule R60). -/
def execIn (_m0 : Mode) (p0 : Int) (s : State) : Host.Outcome State Fault Refusal :=
  s.onActive fun _ => inEffect p0

/-- OUT on the active VM. -/
def execOut (m0 : Mode) (p0 : Int) (s : State) : Host.Outcome State Fault Refusal :=
  s.onActive (outEffect m0 p0)

end Sys2Proof.Machine
end

