-- ==== Sys2Proof/Machine/Dispatch.lean ====
section
/-! DEFINITION. The meaning of each instruction, one arm each (`30_encoding.md` rule R62). -/

namespace Sys2Proof.Machine

def exec (i : Instr) (s : State) : Host.Outcome State Fault Refusal :=
  match i with
  | .add m0 m1 m2 p0 p1 p2 => Sys2Proof.Machine.execAdd m0 m1 m2 p0 p1 p2 s
  | .mul m0 m1 m2 p0 p1 p2 => Sys2Proof.Machine.execMul m0 m1 m2 p0 p1 p2 s
  | .inp m0 p0 => Sys2Proof.Machine.execIn m0 p0 s
  | .out m0 p0 => Sys2Proof.Machine.execOut m0 p0 s
  | .jt m0 m1 p0 p1 => Sys2Proof.Machine.execJt m0 m1 p0 p1 s
  | .jf m0 m1 p0 p1 => Sys2Proof.Machine.execJf m0 m1 p0 p1 s
  | .lt m0 m1 m2 p0 p1 p2 => Sys2Proof.Machine.execLt m0 m1 m2 p0 p1 p2 s
  | .eq m0 m1 m2 p0 p1 p2 => Sys2Proof.Machine.execEq m0 m1 m2 p0 p1 p2 s
  | .halt => Sys2Proof.Machine.execHalt s

end Sys2Proof.Machine
end

