-- ==== Sys2Proof/Machine/Orchestrator.lean ====
section
/-! DEFINITION. The amplifier network orchestrator: a state machine whose every action is one block
step (`44_orchestrator.md`). -/

namespace Sys2Proof.Machine

/-- Launch, the effect of START in network mode (rule R98): `N` fresh VMs, each with its phase setting
as its first input.  The phase pushes cannot overflow, since `Q_CAP ≥ 2`. -/
def State.launch (s : State) : State :=
  { s with
    vms := (List.range s.params.n).map fun i =>
      { Vm.construct s.prog with inQ := push [] (s.phase.getD i 0) }
    signal := 0
    sigValid := true
    turn := 0
    passCount := 0
    result := 0
    netErr := ⟨.none, 0, 0, 0⟩
    netState := .turnSend }

/-- Ends the network run with an error; no register but `net_state` and `net_err` changes
(rule R109). -/
def State.failNetwork (s : State) (e : NetErr) : State := { s with netState := .error, netErr := e }

/-- Send, in state `TURN_SEND` (rule R99): pushes the signal when there is one to forward, and calls
the VM. -/
def State.send (s : State) : State :=
  let v := s.vm s.turn
  if s.sigValid = true ∧ queueFull s.params.qCap v.inQ = true then
    s.failNetwork ⟨.queueOverflow, v.ip, 0, s.turn⟩
  else
    let v' := if s.sigValid then { v with inQ := push v.inQ s.signal } else v
    { s.setVm s.turn v'.call with netState := .turnRun }

/-- The end of a turn's run: the block step of `TURN_RUN` in which `VM[turn]` is no longer `Running`
(rule R100). -/
def State.endRun (s : State) : State := { s with netState := .turnCollect }

/-- The next turn, or the end of the pass (the last lines of rule R101). -/
def State.nextTurn (s : State) : State :=
  if s.turn + 1 < s.params.n then { s with turn := s.turn + 1, netState := .turnSend }
  else { s with netState := .passEnd }

/-- Collect, in state `TURN_COLLECT` (rule R101): a fault is carried up; otherwise the VM's oldest
unread output becomes the signal; a VM halted without output drains; a VM that waits without output
starves the network. -/
def State.collect (s : State) : State :=
  let v := s.vm s.turn
  if v.state = .faulted then s.failNetwork ⟨v.err.kind, v.err.address, v.err.word, s.turn⟩
  else match v.outQ with
    | x :: rest => { s.setVm s.turn { v with outQ := rest } with signal := x, sigValid := true }.nextTurn
    | [] =>
      if v.state = .halted then { s with sigValid := false }.nextTurn
      else s.failNetwork ⟨.inputStarved, v.ip, 0, s.turn⟩

/-- End of pass, in state `PASS_END` (rule R102): the test reads only `VM[N-1]` (rule R107). -/
def State.passEnd (s : State) : State :=
  let s' := { s with passCount := s.passCount + 1 }
  if s.feedback = false ∨ (s.vm (s.params.n - 1)).state = .halted then
    { s' with result := s.signal, netState := .done }
  else { s' with turn := 0, netState := .turnSend }

/-- The block step taken when no VM is to execute an instruction.  `IDLE`, `DONE` and `ERROR` have no
step (rule R103): the block waits for the host, and nothing changes (log 6). -/
def State.orchestrate (s : State) : State :=
  match s.netState with
  | .turnSend => s.send
  | .turnRun => s.endRun
  | .turnCollect => s.collect
  | .passEnd => s.passEnd
  | .idle | .done | .error => s

end Sys2Proof.Machine
end

