-- ==== Sys2Proof/Machine/HostPort.lean ====
section
/-! DEFINITION. The host's transactions (`45_host_and_search.md`) and the status interface
(`10_state.md` rule R36). -/

namespace Sys2Proof.Machine

/-! ## Codes (rules R26, R33, R34, R126) -/

/-- The numeric code of a lifecycle state (rule R26). -/
def VmState.code : VmState → Nat
  | .ready => 0
  | .running => 1
  | .awaitingInput => 2
  | .yielded => 3
  | .halted => 4
  | .faulted => 5
  | .absent => 6

/-- The numeric code of a fault kind (rule R126). -/
def ErrKind.code : ErrKind → Nat
  | .none => 0
  | .invalidInstruction => 1
  | .outOfBounds => 2
  | .inputStarved => 3
  | .overflow => 4
  | .queueOverflow => 5

/-- The numeric code of `blk_mode` (rule R33). -/
def BlkMode.code : BlkMode → Nat
  | .none => 0
  | .standalone => 1
  | .network => 2

/-- The numeric code of `net_state` (rule R34). -/
def NetState.code : NetState → Nat
  | .idle => 0
  | .turnSend => 1
  | .turnRun => 2
  | .turnCollect => 3
  | .passEnd => 4
  | .done => 5
  | .error => 6

/-! ## The status fields (rule R36) -/

/-- Status indices 0 to 13. -/
def State.blockField (s : State) (index : Nat) : Option StatusValue :=
  match index with
  | 0 => some (.natural s.blkMode.code)
  | 1 => some (.natural s.netState.code)
  | 2 => some (.natural s.turn)
  | 3 => some (.natural s.passCount)
  | 4 => some (.word s.signal)
  | 5 => some (.flag s.sigValid)
  | 6 => some (.word s.result)
  | 7 => some (.natural s.netErr.kind.code)
  | 8 => some (.word s.netErr.address)
  | 9 => some (.word s.netErr.word)
  | 10 => some (.natural s.netErr.vm)
  | 11 => some (.flag s.feedback)
  | 12 => some (.natural s.prog.length)
  | 13 => some (.params s.params)
  | _ => none

/-- Status indices `32 + i`: `phase[i]`. -/
def State.phaseField (s : State) (index : Nat) : Option StatusValue :=
  if 32 ≤ index ∧ index < 32 + s.params.n then some (.word (s.phase.getD (index - 32) 0)) else none

/-- The seven fields of a VM. -/
def Vm.field (vm : Vm) : Nat → Option StatusValue
  | 0 => some (.natural vm.state.code)
  | 1 => some (.word vm.ip)
  | 2 => some (.natural vm.err.kind.code)
  | 3 => some (.word vm.err.address)
  | 4 => some (.word vm.err.word)
  | 5 => some (.natural vm.inQ.length)
  | 6 => some (.natural vm.outQ.length)
  | _ => none

/-- Status indices `64 + 8i + j`: field `j` of `VM[i]`. -/
def State.vmField (s : State) (index : Nat) : Option StatusValue :=
  if 64 ≤ index ∧ (index - 64) / 8 < s.params.n then (s.vm ((index - 64) / 8)).field ((index - 64) % 8)
  else none

/-- The status field with an index.  With `N > 32` an index can name both a phase and a VM field; which
one it then reads is open (log 12). -/
def State.statusField (s : State) (index : Nat) : Option StatusValue :=
  match s.blockField index, s.phaseField index, s.vmField index with
  | some v, _, _ => some v
  | none, some v, none => some v
  | none, none, v => v
  | none, some v, some u => some (if Config.statusOverlapNamesVm index then u else v)

/-! ## Preconditions (rules R112 and R113) -/

/-- The block is busy (rule R113): a network run is in progress, or `VM[0]` runs in standalone mode. -/
def State.busy (s : State) : Bool :=
  s.netBusy || (decide (s.blkMode = .standalone) && decide ((s.vm 0).state = .running))

/-- Every word the transaction carries is representable, and a phase list has `N` entries: the types of
the transactions (rules R114, R115, R120 and decision D29). -/
def Txn.wellTyped (p : Params) : Txn → Bool
  | .load seq => seq.all fun v => decide (p.width.Representable v)
  | .configure _ _ phase =>
    decide (phase.length = p.n) && phase.all fun v => decide (p.width.Representable v)
  | .push v => decide (p.width.Representable v)
  | .reset | .start | .run | .pop | .memread _ _ | .status _ => true

/-- Whether a transaction, performed, changes `VM[0]`: PUSH does, RUN where `run()` would execute it
(not on a `Halted` or `Faulted` VM, rule R81), and POP where there is a value to take (rule R122).  RESET
and START replace the VM, and the others leave it. -/
def State.usesVm (s : State) : Txn → Bool
  | .push _ => true
  | .run => decide ((s.vm 0).call.state = .running)
  | .pop => decide ((s.vm 0).outQ ≠ [])
  | .reset | .load _ | .configure _ _ _ | .start | .memread _ _ | .status _ => false

/-- What PUSH, RUN and POP have in common: standalone mode, and a `VM[0]` that is not `Running` (rule
R112).  They do not change the VMs of a network run, which stay as they are until START or RESET (rule
R103); those leave `net_state = IDLE` (log 9). -/
def State.standaloneRefusal (s : State) (t : Txn) : Option HostRefusal :=
  if s.blkMode ≠ .standalone then some .notStandalone
  else if (s.vm 0).state = .running then some .vmRunning
  else if s.netState ≠ .idle ∧ s.usesVm t = true then some .networkVms
  else none

/-- The reason a transaction is refused, or `none` when its precondition holds (rule R112).  Which
reason is given when several apply is the model's choice (log 10). -/
def State.refusal (s : State) (t : Txn) : Option HostRefusal :=
  if t.wellTyped s.params = false then some .illTyped
  else match t with
  | .reset => none
  | .load seq =>
    if s.busy then some .busy
    else if s.params.memCap < seq.length then some .imageTooLong
    else none
  | .configure _ _ _ => if s.busy then some .busy else none
  | .start =>
    if s.busy then some .busy
    else if s.blkMode = .none then some .notConfigured
    else none
  | .push v =>
    (s.standaloneRefusal (.push v)).or (if queueFull s.params.qCap (s.vm 0).inQ then some .queueFull else none)
  | .run =>
    (s.standaloneRefusal .run).or (if (s.vm 0).state = .absent then some .notConstructed else none)
  | .pop => s.standaloneRefusal .pop
  | .memread i a =>
    if s.busy then some .busy
    else if (s.vm i).state = .absent then some .notConstructed
    else if (s.vm i).mem.InBounds a then none
    else some .addressOutOfRange
  | .status index => if s.statusField index = none then some .noSuchField else none

/-! ## Effects -/

/-- RESET (rules R38 and R141).  The parameters are not changed; the host's coming moves and the
answers it was given are its own and stay (log 22). -/
def State.doReset (s : State) : State :=
  { State.resetWith s.params with hostMoves := s.hostMoves, hostAnswers := s.hostAnswers }

/-- START in standalone mode (rule R116): `VM[0]` alone is constructed, and `net_state` is `IDLE`
(log 8).  Every other VM is destroyed.  What its fields other than `vm_state` then read, `VM[i].ip` by
STATUS among them, the spec does not say: the model gives them the values of rule R38.  DESIGN CHOICE
(log 25). -/
def State.startStandalone (s : State) : State :=
  { s with
    vms := (List.range s.params.n).map fun i => if i = 0 then Vm.construct s.prog else Vm.absent
    netState := .idle }

/-- START (rule R116). -/
def State.doStart (s : State) : State :=
  match s.blkMode with
  | .network => s.launch
  | .standalone => s.startStandalone
  | .none => s

/-- RUN (rule R121): on a `Halted` or `Faulted` VM `run()` returns at once; otherwise `VM[0]` is
`Running`, and the answer comes when `run()` returns (log 7). -/
def State.doRun (s : State) : State :=
  let v := (s.vm 0).call
  if v.state = .running then s.setVm 0 v else s.answer (.ran v.state)

/-- POP (rule R122). -/
def State.doPop (s : State) : State :=
  match (s.vm 0).outQ with
  | x :: rest => (s.setVm 0 { s.vm 0 with outQ := rest }).answer (.value x)
  | [] => s.answer .empty

/-- The effect and the answer of a transaction whose precondition holds. -/
def State.perform (s : State) : Txn → State
  | .reset => s.doReset.answer .ok
  | .load seq => { s with prog := seq }.answer .ok
  | .configure mode feedback phase =>
    { s with blkMode := mode, feedback := feedback, phase := phase }.answer .ok
  | .start => s.doStart.answer .ok
  | .push v => (s.setVm 0 { s.vm 0 with inQ := push (s.vm 0).inQ v }).answer .ok
  | .run => s.doRun
  | .pop => s.doPop
  | .memread i a => s.answer (.value ((s.vm i).mem.getD a.toNat 0))
  | .status index =>
    match s.statusField index with
    | some v => s.answer (.field v)
    | none => s.answer (.refused .noSuchField)

/-- A transaction: refused with no change, or performed (rule R112). -/
def State.transact (s : State) (t : Txn) : State :=
  match s.refusal t with
  | some r => s.answer (.refused r)
  | none => s.perform t

end Sys2Proof.Machine
end

