-- ==== Sys2Proof/Machine/Cycle.lean ====
section
/-! DEFINITION. One block step: an instruction of the active VM, or an action of the orchestrator; and
placing an instruction where the next block step fetches it. -/

namespace Sys2Proof.Machine

/-- One step of `VM[k]`, which is `Running` (rules R69 to R72): a fault of the fetch, or the
instruction fetched. -/
def State.vmStep (s : State) (k : Nat) : Host.Outcome State Fault Refusal :=
  match (s.vm k).fetch with
  | .ok i => exec i s
  | .error e => .next (s.commitVm k ((s.vm k).raise e))

/-- One block step (rules R100, R121 and R98 to R103). -/
def State.blockStep (s : State) : Host.Outcome State Fault Refusal :=
  match s.active with
  | some k => s.vmStep k
  | none => .next s.orchestrate

/-- A standalone VM built from the program `ws` and called, as LOAD, CONFIGURE, START and RUN leave
it (log 15). -/
def State.runStandalone (s : State) (ws : List Int) : State :=
  { { s with prog := ws, blkMode := .standalone }.startStandalone with hostMoves := [] }.doRun

/-- Places an instruction's words where the next step fetches: over the words at `ip` of the VM that
executes next, lengthening its memory where they would end beyond it; or, where no VM executes next or
its `ip` is outside memory, as the program of a standalone VM at address 0.  No host move comes before
the step (log 15). -/
def State.placeInstr (s : State) (ws : List Int) : State :=
  match s.active with
  | none => s.runStandalone ws
  | some k =>
    let v := s.vm k
    if 0 ≤ v.ip ∧ v.ip ≤ (v.mem.length : Int) then
      { s.setVm k { v with mem := v.mem.take v.ip.toNat ++ ws ++ v.mem.drop (v.ip.toNat + ws.length) } with
        hostMoves := [] }
    else s.runStandalone ws

end Sys2Proof.Machine
end

