-- ==== Sys2Proof/Machine/Step.lean ====
section
/-! DEFINITION. One step of the machine, and the placing of an instruction for the next step. -/

namespace Sys2Proof.Machine

/-- One step: the host's next transaction, which happens between two block steps (rule R112), or a
block step.  With no host move left the block steps on its own (log 5). -/
def step (s : State) : Host.Outcome State Fault Refusal :=
  match s.hostMoves with
  | .transaction t :: rest => .next ({ s with hostMoves := rest }.transact t)
  | .blockStep :: rest => { s with hostMoves := rest }.blockStep
  | [] => s.blockStep

/-- `s` with the instruction whose table bits are the low `nbits` bits of `w` placed where the next
step fetches it (log 15). -/
def State.withFetchWord (s : State) (nbits w : Nat) : State :=
  s.placeInstr (tableWords s.params.width nbits w)

end Sys2Proof.Machine
end

