-- ==== Sys2Proof/Machine/Reference.lean ====
section
/-! DEFINITION. The spec's two reference procedures, written from its pseudocode: the whole VM step
(`40_execution_engine.md` rule R77) and the whole network run (`44_orchestrator.md` rule R104).  They use
the splitting and the validity of an instruction word and the opcode map of `Decode.lean` (rules R56, R59
and R62), `Vm.raise`, `Vm.call` and `queueFull`, and nothing else of the machine: no decoded instruction,
no operand operation, no meaning, no step of the orchestrator.  The machine does not call them;
statements say that it agrees with them. -/

namespace Sys2Proof.Machine

/-! ## Rule R77: the step of a `Running` VM -/

/-- `for k in 0 .. n(op)-1`: the parameter words from parameter `k` on, `n` of them. -/
def refParams (m : Memory) (ip : Int) : Nat → Nat → Except VmErr (List Int)
  | _, 0 => .ok []
  | k, n + 1 =>
    if (m.length : Int) ≤ ip + 1 + k then .error (.outOfBounds (ip + 1 + k))
    else (refParams m ip (k + 1) n).map fun ps => m.getD (ip + 1 + k).toNat 0 :: ps

/-- The second loop: `tgt(k)` or `val(k)` for each parameter from `k` on. -/
def refResolve (m : Memory) (w : Int) : Nat → List Role → List Int → Except VmErr (List Int)
  | k, role :: roles, p :: ps =>
    if role = .target then
      if p < 0 ∨ (m.length : Int) ≤ p then .error (.outOfBounds p)
      else (refResolve m w (k + 1) roles ps).map fun xs => p :: xs
    else if modeDigit k w = 0 then
      if p < 0 ∨ (m.length : Int) ≤ p then .error (.outOfBounds p)
      else (refResolve m w (k + 1) roles ps).map fun xs => m.getD p.toNat 0 :: xs
    else (refResolve m w (k + 1) roles ps).map fun xs => p :: xs
  | _, _, _ => .ok []

/-- `case op of`, with the opcode rules R87 to R95. -/
def refCase (p : Params) (vm : Vm) (w op : Int) (x : List Int) : Vm :=
  let v := fun k => x.getD k 0
  if op = 1 then
    if p.width.Representable (v 0 + v 1) then
      { vm with mem := vm.mem.set (v 2).toNat (v 0 + v 1), ip := vm.ip + 4 }
    else vm.raise ⟨.overflow, vm.ip, w⟩
  else if op = 2 then
    if p.width.Representable (v 0 * v 1) then
      { vm with mem := vm.mem.set (v 2).toNat (v 0 * v 1), ip := vm.ip + 4 }
    else vm.raise ⟨.overflow, vm.ip, w⟩
  else if op = 7 then
    { vm with mem := vm.mem.set (v 2).toNat (if v 0 < v 1 then 1 else 0), ip := vm.ip + 4 }
  else if op = 8 then
    { vm with mem := vm.mem.set (v 2).toNat (if v 0 = v 1 then 1 else 0), ip := vm.ip + 4 }
  else if op = 3 then
    match vm.inQ with
    | [] => { vm with state := .awaitingInput }
    | x :: rest => { vm with mem := vm.mem.set (v 0).toNat x, ip := vm.ip + 2, inQ := rest }
  else if op = 4 then
    if queueFull p.qCap vm.outQ then vm.raise ⟨.queueOverflow, vm.ip, w⟩
    else
      { vm with
        outQ := vm.outQ ++ [v 0]
        ip := vm.ip + 2
        state := if p.yieldOnOutput then .yielded else vm.state }
  else if op = 5 then { vm with ip := if v 0 ≠ 0 then v 1 else vm.ip + 3 }
  else { vm with ip := if v 0 = 0 then v 1 else vm.ip + 3 }

/-- `step(vm)` of rule R77. -/
def refStep (p : Params) (vm : Vm) : Vm :=
  if vm.ip < 0 ∨ (vm.mem.length : Int) ≤ vm.ip then vm.raise (.outOfBounds vm.ip)
  else
    let w := vm.mem.getD vm.ip.toNat 0
    if validWord w = false then vm.raise ⟨.invalidInstruction, vm.ip, w⟩
    else
      let op := (decodeFields w).opcode
      if op = 99 then { vm with state := .halted }
      else
        let roles := (rolesOf op).getD []
        match refParams vm.mem vm.ip 0 roles.length with
        | .error e => vm.raise e
        | .ok ps =>
          match refResolve vm.mem w 0 roles ps with
          | .error e => vm.raise e
          | .ok xs => refCase p vm w op xs

/-! ## Rule R104: the network run -/

/-- What the procedure carries from turn to turn. -/
structure RefNet where
  vms : List Vm
  signal : Int
  sigValid : Bool
  passCount : Nat
  deriving DecidableEq, Repr

/-- How the procedure returns, with the network it leaves. -/
inductive RefEnd where
  | done (signal : Int)
  | error (e : NetErr)
  deriving DecidableEq, Repr

/-- `run(VM)`: steps until a stop event (rules R78 and R79); `none` when the bound on the steps is
reached first. -/
def refRun (p : Params) : Nat → Vm → Option Vm
  | fuel, vm =>
    if vm.state = .running then
      match fuel with
      | 0 => none
      | fuel + 1 => refRun p fuel (refStep p vm)
    else some vm

/-- The body of `for turn in 0 .. N-1`. -/
def refTurn (p : Params) (fuel : Nat) (turn : Nat) (net : RefNet) : Option (Except NetErr RefNet) :=
  let v := net.vms.getD turn Vm.absent
  if net.sigValid = true ∧ queueFull p.qCap v.inQ = true then
    some (.error ⟨.queueOverflow, v.ip, 0, turn⟩)
  else
    let sent := if net.sigValid then { v with inQ := v.inQ ++ [net.signal] } else v
    (refRun p fuel sent.call).map fun v' =>
      if v'.state = .faulted then .error ⟨v'.err.kind, v'.err.address, v'.err.word, turn⟩
      else match v'.outQ with
        | x :: rest =>
          .ok { net with vms := net.vms.set turn { v' with outQ := rest }, signal := x, sigValid := true }
        | [] =>
          if v'.state = .halted then .ok { net with vms := net.vms.set turn v', sigValid := false }
          else .error ⟨.inputStarved, v'.ip, 0, turn⟩

/-- The turns listed, in order. -/
def refTurns (p : Params) (fuel : Nat) : List Nat → RefNet → Option (Except NetErr RefNet)
  | [], net => some (.ok net)
  | i :: is, net =>
    match refTurn p fuel i net with
    | none => none
    | some (.error e) => some (.error e)
    | some (.ok net') => refTurns p fuel is net'

/-- `loop`: passes until the procedure returns; `none` when a bound is reached first. -/
def refLoop (p : Params) (feedback : Bool) (fuel : Nat) : Nat → RefNet → Option (RefEnd × Nat)
  | 0, _ => none
  | passes + 1, net =>
    match refTurns p fuel (List.range p.n) net with
    | none => none
    | some (.error e) => some (.error e, net.passCount)
    | some (.ok net') =>
      if feedback = false ∨ (net'.vms.getD (p.n - 1) Vm.absent).state = .halted then
        some (.done net'.signal, net'.passCount + 1)
      else refLoop p feedback fuel passes { net' with passCount := net'.passCount + 1 }

/-- `run_network()` after its launch: the end, and the passes completed.  `fuel` bounds the steps of
each `run()`, `passes` the passes. -/
def refNetwork (fuel passes : Nat) (s : State) : Option (RefEnd × Nat) :=
  refLoop s.params s.feedback fuel passes ⟨s.vms, s.signal, s.sigValid, s.passCount⟩

end Sys2Proof.Machine
end

