-- ==== Sys2Proof/Machine/Search.lean ====
section
/-! DEFINITION. The phase-setting search, a procedure of the host over the block
(`45_host_and_search.md` rule R125).  A network run need not end (rule R82), so the procedure takes a
bound on the block steps of each run and says when a run did not end within it (log 20). -/

namespace Sys2Proof.Machine

/-- What the search answers. -/
inductive SearchResult where
  /-- The maximum observed result. -/
  | best (v : Int)
  /-- A network run ended in `ERROR`; the search aborts. -/
  | networkError (e : NetErr)
  /-- The sequence of permutations is empty. -/
  | noCandidates
  /-- The block refused a transaction of the procedure. -/
  | refused (r : HostRefusal)
  /-- A network run did not end within the bound. -/
  | unfinished
  deriving DecidableEq, Repr

/-- Block steps, the host silent, until `net_state` is `DONE` or `ERROR`; `none` when the bound is
reached first. -/
def State.waitNetwork : Nat → State → Option State
  | fuel, s =>
    match s.netState with
    | .done | .error => some s
    | _ =>
      match fuel with
      | 0 => none
      | fuel + 1 =>
        match s.blockStep with
        | .next s' => State.waitNetwork fuel s'
        | .fault _ | .refused _ => none

/-- A transaction of the procedure, which goes on only when the block does not refuse it. -/
def State.request (s : State) (t : Txn) : Except HostRefusal State :=
  match s.refusal t with
  | some r => .error r
  | none => .ok (s.perform t)

/-- The procedure's `network_runner`: CONFIGURE, START, wait. -/
def State.networkRun (fuel : Nat) (s : State) (feedback : Bool) (phase : List Int) :
    Except SearchResult State :=
  match (s.request (.configure .network feedback phase)).bind fun s1 => s1.request .start with
  | .error r => .error (.refused r)
  | .ok s2 =>
    match s2.waitNetwork fuel with
    | none => .error .unfinished
    | some s3 => if s3.netState = .error then .error (.networkError s3.netErr) else .ok s3

/-- The loop over the permutations, with the best result so far. -/
def State.searchFrom (fuel : Nat) (s : State) (feedback : Bool) (best : Option Int) :
    List (List Int) → SearchResult
  | [] =>
    match best with
    | none => .noCandidates
    | some v => .best v
  | phase :: rest =>
    match s.networkRun fuel feedback phase with
    | .error r => r
    | .ok s' =>
      let v := match best with
        | none => s'.result
        | some b => max b s'.result
      s'.searchFrom fuel feedback (some v) rest

/-- `best_signal` (rule R125): the program is loaded once, each permutation is run, and the first error
aborts the search. -/
def State.bestSignal (fuel : Nat) (s : State) (program : List Int) (feedback : Bool)
    (perms : List (List Int)) : SearchResult :=
  match s.request (.load program) with
  | .error r => .refused r
  | .ok s' => s'.searchFrom fuel feedback none perms

end Sys2Proof.Machine
end

