-- ==== Sys2Proof/Safety.lean ====
section
/-! DEFINITION. What counts as a state the machine may be in, and the lifecycle moves it may make, in
the terms the statements use. -/

namespace Sys2Proof.Machine

/-- Every word of a list is representable (rule R13). -/
abbrev AllRepresentable (w : Width) (l : List Int) : Prop := ∀ v ∈ l, w.Representable v

/-- A queue within its capacity, holding representable words (rules R13, R29, R30). -/
abbrev QueueOk (p : Params) (q : List Int) : Prop :=
  (∀ c ∈ p.qCap, q.length ≤ c) ∧ AllRepresentable p.width q

/-- The kinds of fault a VM can raise (rule R126: kinds 1, 2, 4 and 5). -/
abbrev ErrKind.IsVmFault (k : ErrKind) : Prop :=
  k = .invalidInstruction ∨ k = .outOfBounds ∨ k = .overflow ∨ k = .queueOverflow

/-- What holds of each VM: memory in form, every word representable, queues within capacity, and the
error record `(None, 0, 0)` exactly when the VM has not faulted (rules R9, R13, R28 to R30). -/
structure Vm.Ok (p : Params) (vm : Vm) : Prop where
  mem : Memory.wf p vm.mem
  ip : p.width.Representable vm.ip
  errAddress : p.width.Representable vm.err.address
  errWord : p.width.Representable vm.err.word
  inQ : QueueOk p vm.inQ
  outQ : QueueOk p vm.outQ
  noErr : vm.state ≠ .faulted → vm.err = ⟨.none, 0, 0⟩
  hasErr : vm.state = .faulted → vm.err.kind.IsVmFault

/-- The invariant of the block. -/
structure State.Inv (s : State) : Prop where
  /-- The parameters are legal (rules R6 to R11). -/
  params : s.params.Legal
  /-- There are `N` phases and `N` VM indices (rules R7, R33). -/
  phases : s.phase.length = s.params.n
  vmCount : s.vms.length = s.params.n
  /-- `0 ≤ turn < N` (rule R34). -/
  turn : s.turn < s.params.n
  /-- `L ≤ MEM_CAP`, and every word is representable (rules R13, R32). -/
  prog : Memory.wf s.params s.prog
  phaseWords : AllRepresentable s.params.width s.phase
  signal : s.params.width.Representable s.signal
  result : s.params.width.Representable s.result
  netErrAddress : s.params.width.Representable s.netErr.address
  netErrWord : s.params.width.Representable s.netErr.word
  /-- Every VM is in order. -/
  vmsOk : ∀ vm ∈ s.vms, vm.Ok s.params
  /-- A network run is in progress in network mode only (rules R113 and R116). -/
  busyMode : s.netBusy = true → s.blkMode = .network
  /-- At most one VM is `Running`, and it is the one the next block step executes (rule R85). -/
  oneRunning : ∀ i, (s.vm i).state = .running → s.active = some i
  /-- What the host may send: the transactions are well typed (decision D29). -/
  hostTyped : ∀ t, HostMove.transaction t ∈ s.hostMoves → t.wellTyped s.params = true

/-- The legal lifecycle transitions (rule R27). -/
def VmState.mayBecome : VmState → VmState → Bool
  | .absent, .ready
  | .ready, .running | .awaitingInput, .running | .yielded, .running
  | .running, .awaitingInput | .running, .yielded | .running, .halted | .running, .faulted => true
  | _, .absent => true
  | _, _ => false

/-- `Halted` and `Faulted` (rule R81). -/
abbrev VmState.Terminal (v : VmState) : Prop := v = .halted ∨ v = .faulted

/-- What a program or another VM could tell of a VM besides its queues. -/
abbrev Vm.SameCore (a b : Vm) : Prop :=
  a.mem = b.mem ∧ a.ip = b.ip ∧ a.state = b.state ∧ a.err = b.err

/-- Everything of the block but its VMs and the answers to the host is the same. -/
structure State.SameBlock (s t : State) : Prop where
  params : t.params = s.params
  blkMode : t.blkMode = s.blkMode
  prog : t.prog = s.prog
  feedback : t.feedback = s.feedback
  phase : t.phase = s.phase
  netState : t.netState = s.netState
  turn : t.turn = s.turn
  passCount : t.passCount = s.passCount
  signal : t.signal = s.signal
  sigValid : t.sigValid = s.sigValid
  result : t.result = s.result
  netErr : t.netErr = s.netErr
  hostMoves : t.hostMoves = s.hostMoves
  vmCount : t.vms.length = s.vms.length

/-- What an instruction of `VM[k]` leaves unchanged outside `VM[k]`: the block and every other VM; an
answer to the host is added only when `VM[k]` is no longer `Running`. -/
structure State.OnlyVm (s t : State) (k : Nat) : Prop where
  block : s.SameBlock t
  others : ∀ j, j ≠ k → t.vm j = s.vm j
  answers : (t.vm k).state = .running → t.hostAnswers = s.hostAnswers

/-- The host lets the block step: no transaction comes before the next block step. -/
abbrev State.HostSilent (s : State) : Prop := s.hostMoves = []

end Sys2Proof.Machine
end

