-- ==== Sys2Proof/Certificates/Slice0/Obligations.lean ====
section
/-! DEFINITION. The statements for the provers.  Each docstring names the rule it formalises.  A clause
about `hostMoves` or `hostAnswers` rests on the model's way of holding the host's moves and answers as
data (log 5), and a clause about a step where the block has none on log 6: those are the model's. -/

open Sys2Proof Sys2Proof.Machine

/-! ## Encoding -/

/-- Rule R63: on valid words and on the argument tuples of the rule, `encode` and `decode` are inverse
to each other. -/
def Obligations.FieldsRoundTrip : Prop :=
  (∀ w : Int, validWord w = true → encodeFields (decodeFields w) = w) ∧
  (∀ (op m0 m1 m2 : Int) (roles : List Role), rolesOf op = some roles →
    (m0 = 0 ∨ m0 = 1) → (m1 = 0 ∨ m1 = 1) → (m2 = 0 ∨ m2 = 1) →
    (roles.length ≤ 0 → m0 = 0) → (roles.length ≤ 1 → m1 = 0) → (roles.length ≤ 2 → m2 = 0) →
    decodeFields (encodeFields ⟨op, m0, m1, m2⟩) = ⟨op, m0, m1, m2⟩)

/-- Rules R53, R55, R63 and R64 for whole instructions: decoding the words of an instruction gives it
back with the words that follow it, and a list of words decodes only to the instruction it encodes. -/
def Obligations.DecodeInvertsEncode : Prop :=
  (∀ (i : Instr) (rest : List Int), decode (encode i ++ rest) = .ok (i, rest)) ∧
  (∀ (ws : List Int) (i : Instr) (rest : List Int), decode ws = .ok (i, rest) → ws = encode i ++ rest)

/-- Rules R59, R62 and R65: the valid instruction words are exactly the 45 of the opcode map. -/
def Obligations.ValidWordsAreTheOpcodeMap : Prop :=
  ∀ w : Int, validWord w = true ↔
    w ∈ ([1, 101, 1001, 1101, 10001, 10101, 11001, 11101,
          2, 102, 1002, 1102, 10002, 10102, 11002, 11102,
          3, 103, 4, 104, 5, 105, 1005, 1105, 6, 106, 1006, 1106,
          7, 107, 1007, 1107, 10007, 10107, 11007, 11107,
          8, 108, 1008, 1108, 10008, 10108, 11008, 11108, 99] : List Int)

/-- Rules R13, R55 and R64: the words of a well-formed instruction are representable, in either width,
and their number is the instruction's length. -/
def Obligations.EncodedWordsAreRepresentable : Prop :=
  ∀ (w : Width) (i : Instr), i.wellFormed w = true →
    (∀ v ∈ encode i, w.Representable v) ∧ (encode i).length = i.length

/-- A few words written out from the formats of rule R55, decoded. -/
def Obligations.SampleWordsDecode : Prop :=
  decode [1101, 100, -1, 4] = .ok (.add .immediate .immediate .position 100 (-1) 4, []) ∧
  decode [1002, 4, 3, 4] = .ok (.mul .position .immediate .position 4 3 4, []) ∧
  decode [103, 2] = .ok (.inp .immediate 2, []) ∧
  decode [104, -7] = .ok (.out .immediate (-7), []) ∧
  decode [105, 1, 4] = .ok (.jt .immediate .position 1 4, []) ∧
  decode [1006, 20, 16] = .ok (.jf .position .immediate 20 16, []) ∧
  decode [10007, 17, 18, 19] = .ok (.lt .position .position .immediate 17 18 19, []) ∧
  decode [11108, 7, 7, 5] = .ok (.eq .immediate .immediate .immediate 7 7 5, []) ∧
  decode [99] = .ok (.halt, [])

/-- Rules R60 and R67: assembling a disassembled instruction gives it back with its write target's mode
digit set to 0, and nothing else is lost. -/
def Obligations.ReassemblyClearsOnlyTargetMode : Prop :=
  ∀ i : Instr, assemble i.disassemble = some i.canonical

/-- Rule R60: the mode digit of a write target has no effect on an instruction that does not report its
own instruction word. -/
def Obligations.TargetModeHasNoEffect : Prop :=
  ∀ (m0 m1 m2 m2' : Mode) (p0 p1 p2 : Int) (s : State),
    exec (.lt m0 m1 m2 p0 p1 p2) s = exec (.lt m0 m1 m2' p0 p1 p2) s ∧
    exec (.eq m0 m1 m2 p0 p1 p2) s = exec (.eq m0 m1 m2' p0 p1 p2) s ∧
    exec (.inp m0 p0) s = exec (.inp m1 p0) s ∧
    ∀ k a b, s.active = some k → operand (s.vm k).mem m0 p0 = .ok a → operand (s.vm k).mem m1 p1 = .ok b →
      (s.params.width.Representable (a + b) →
        exec (.add m0 m1 m2 p0 p1 p2) s = exec (.add m0 m1 m2' p0 p1 p2) s) ∧
      (s.params.width.Representable (a * b) →
        exec (.mul m0 m1 m2 p0 p1 p2) s = exec (.mul m0 m1 m2' p0 p1 p2) s)

/-! ## Memory and operands -/

/-- Rule R16: `MemRead` and `MemWrite`, one word at a time, in bounds or `OutOfBounds(a)`. -/
def Obligations.MemoryReadsWhatWasWritten : Prop :=
  ∀ (m : Memory) (a v : Int),
    (m.InBounds a →
      ∃ m', m.write a v = .ok m' ∧ m'.length = m.length ∧ m'.read a = .ok v ∧
        ∀ b, b ≠ a → m'.read b = m.read b) ∧
    (¬ m.InBounds a → m.read a = .error (.outOfBounds a) ∧ m.write a v = .error (.outOfBounds a)) ∧
    (∀ n : Nat, n < m.length → ∃ x, m[n]? = some x ∧ m.read (n : Int) = .ok x)

/-- Rules R73 and R74: a position operand is dereferenced once or faults, an immediate operand is the
parameter word, and a target is an address that is checked. -/
def Obligations.OperandsResolveByMode : Prop :=
  ∀ (m : Memory) (p : Int),
    (∀ x, m.InBounds p → m[p.toNat]? = some x → operand m .position p = .ok x) ∧
    (¬ m.InBounds p → operand m .position p = .error ⟨.outOfBounds, p, 0⟩) ∧
    operand m .immediate p = .ok p ∧
    (m.InBounds p → target m p = .ok p) ∧
    (¬ m.InBounds p → target m p = .error ⟨.outOfBounds, p, 0⟩)

/-- Rules R75 and R128 item 4: operands and target are checked in ascending order, and the first check
that fails is the fault of the instruction, whatever the later ones would give. -/
def Obligations.FirstFailingOperandIsReported : Prop :=
  ∀ (s : State) (k : Nat) (m0 m1 m2 : Mode) (p0 p1 p2 : Int) (i : Instr), s.active = some k →
    i = .add m0 m1 m2 p0 p1 p2 ∨ i = .mul m0 m1 m2 p0 p1 p2 ∨
      i = .lt m0 m1 m2 p0 p1 p2 ∨ i = .eq m0 m1 m2 p0 p1 p2 →
    (m0 = .position → ¬ (s.vm k).mem.InBounds p0 →
      exec i s = .next (s.commitVm k ((s.vm k).raise ⟨.outOfBounds, p0, 0⟩))) ∧
    ((m0 = .position → (s.vm k).mem.InBounds p0) → m1 = .position → ¬ (s.vm k).mem.InBounds p1 →
      exec i s = .next (s.commitVm k ((s.vm k).raise ⟨.outOfBounds, p1, 0⟩))) ∧
    ((m0 = .position → (s.vm k).mem.InBounds p0) → (m1 = .position → (s.vm k).mem.InBounds p1) →
      ¬ (s.vm k).mem.InBounds p2 →
      exec i s = .next (s.commitVm k ((s.vm k).raise ⟨.outOfBounds, p2, 0⟩)))

/-! ## Results of the instructions, and that each completes -/

/-- ADD (rules R86 and R87): the exact sum is stored at the target and `ip` advances by 4; a sum that
is not representable raises `Overflow(ip, w)` and stores nothing. -/
def Obligations.AddStoresExactSum : Prop :=
  ∀ (s : State) (k : Nat) (m0 m1 m2 : Mode) (p0 p1 p2 a b t : Int), s.active = some k →
    operand (s.vm k).mem m0 p0 = .ok a → operand (s.vm k).mem m1 p1 = .ok b →
    target (s.vm k).mem p2 = .ok t →
    (s.params.width.Representable (a + b) →
      exec (.add m0 m1 m2 p0 p1 p2) s =
        .next (s.setVm k { s.vm k with mem := (s.vm k).mem.store t (a + b), ip := (s.vm k).ip + 4 })) ∧
    (¬ s.params.width.Representable (a + b) →
      exec (.add m0 m1 m2 p0 p1 p2) s =
        .next (s.commitVm k { s.vm k with
          state := .faulted, err := ⟨.overflow, (s.vm k).ip, encodeWord (.add m0 m1 m2 p0 p1 p2)⟩ }))

/-- MUL (rules R86 and R88): as ADD, with the exact product. -/
def Obligations.MulStoresExactProduct : Prop :=
  ∀ (s : State) (k : Nat) (m0 m1 m2 : Mode) (p0 p1 p2 a b t : Int), s.active = some k →
    operand (s.vm k).mem m0 p0 = .ok a → operand (s.vm k).mem m1 p1 = .ok b →
    target (s.vm k).mem p2 = .ok t →
    (s.params.width.Representable (a * b) →
      exec (.mul m0 m1 m2 p0 p1 p2) s =
        .next (s.setVm k { s.vm k with mem := (s.vm k).mem.store t (a * b), ip := (s.vm k).ip + 4 })) ∧
    (¬ s.params.width.Representable (a * b) →
      exec (.mul m0 m1 m2 p0 p1 p2) s =
        .next (s.commitVm k { s.vm k with
          state := .faulted, err := ⟨.overflow, (s.vm k).ip, encodeWord (.mul m0 m1 m2 p0 p1 p2)⟩ }))

/-- LT and EQ (rules R89 and R90): 1 or 0 is stored at the target and `ip` advances by 4. -/
def Obligations.ComparisonsStoreOneOrZero : Prop :=
  ∀ (s : State) (k : Nat) (m0 m1 m2 : Mode) (p0 p1 p2 a b t : Int), s.active = some k →
    operand (s.vm k).mem m0 p0 = .ok a → operand (s.vm k).mem m1 p1 = .ok b →
    target (s.vm k).mem p2 = .ok t →
    exec (.lt m0 m1 m2 p0 p1 p2) s =
      .next (s.setVm k { s.vm k with
        mem := (s.vm k).mem.store t (if a < b then 1 else 0), ip := (s.vm k).ip + 4 }) ∧
    exec (.eq m0 m1 m2 p0 p1 p2) s =
      .next (s.setVm k { s.vm k with
        mem := (s.vm k).mem.store t (if a = b then 1 else 0), ip := (s.vm k).ip + 4 })

/-- IN (rule R91) with a value waiting: the oldest value is stored at the target. -/
def Obligations.InStoresOldestInput : Prop :=
  ∀ (s : State) (k : Nat) (m0 : Mode) (p0 t v : Int) (rest : List Int), s.active = some k →
    target (s.vm k).mem p0 = .ok t → (s.vm k).inQ = v :: rest →
    exec (.inp m0 p0) s =
      .next (s.setVm k { s.vm k with
        mem := (s.vm k).mem.store t v, ip := (s.vm k).ip + 2, inQ := rest })

/-- IN (rule R91) with an empty queue: nothing changes but the lifecycle state.  The target is checked
before the queue is examined, so a target outside memory faults whatever the queue holds. -/
def Obligations.InWaitsOnEmptyQueue : Prop :=
  ∀ (s : State) (k : Nat) (m0 : Mode) (p0 : Int), s.active = some k →
    ((s.vm k).inQ = [] → (s.vm k).mem.InBounds p0 →
      exec (.inp m0 p0) s = .next (s.commitVm k { s.vm k with state := .awaitingInput })) ∧
    (¬ (s.vm k).mem.InBounds p0 →
      exec (.inp m0 p0) s = .next (s.commitVm k { s.vm k with
        state := .faulted, err := ⟨.outOfBounds, p0, 0⟩ }))

/-- OUT (rules R92 and R79): the value is appended and the VM goes on, or yields when `YIELD_ON_OUTPUT`
is set; a full queue raises `QueueOverflow(ip, w)`; a position operand outside memory faults. -/
def Obligations.OutAppendsOrOverflows : Prop :=
  (∀ (s : State) (k : Nat) (p0 : Int), s.active = some k → ¬ (s.vm k).mem.InBounds p0 →
    exec (.out .position p0) s = .next (s.commitVm k { s.vm k with
      state := .faulted, err := ⟨.outOfBounds, p0, 0⟩ })) ∧
  ∀ (s : State) (k : Nat) (m0 : Mode) (p0 v : Int), s.active = some k →
    operand (s.vm k).mem m0 p0 = .ok v →
    (queueFull s.params.qCap (s.vm k).outQ = false → s.params.yieldOnOutput = false →
      exec (.out m0 p0) s =
        .next (s.setVm k { s.vm k with outQ := (s.vm k).outQ ++ [v], ip := (s.vm k).ip + 2 })) ∧
    (queueFull s.params.qCap (s.vm k).outQ = false → s.params.yieldOnOutput = true →
      exec (.out m0 p0) s =
        .next (s.commitVm k { s.vm k with
          outQ := (s.vm k).outQ ++ [v], ip := (s.vm k).ip + 2, state := .yielded })) ∧
    (queueFull s.params.qCap (s.vm k).outQ = true →
      exec (.out m0 p0) s =
        .next (s.commitVm k { s.vm k with
          state := .faulted, err := ⟨.queueOverflow, (s.vm k).ip, encodeWord (.out m0 p0)⟩ }))

/-- JT and JF (rules R93 to R95): a taken jump writes the resolved target into `ip` unchanged, whatever
it is; otherwise `ip` advances by 3.  Any non-zero condition is true. -/
def Obligations.JumpsWriteResolvedTarget : Prop :=
  ∀ (s : State) (k : Nat) (m0 m1 : Mode) (p0 p1 c t : Int), s.active = some k →
    operand (s.vm k).mem m0 p0 = .ok c → operand (s.vm k).mem m1 p1 = .ok t →
    exec (.jt m0 m1 p0 p1) s =
      .next (s.setVm k { s.vm k with ip := if c ≠ 0 then t else (s.vm k).ip + 3 }) ∧
    exec (.jf m0 m1 p0 p1) s =
      .next (s.setVm k { s.vm k with ip := if c = 0 then t else (s.vm k).ip + 3 })

/-- JT and JF (rules R94 and R95): both operands are resolved, and bounds-checked in position mode,
even when the jump is not taken. -/
def Obligations.JumpOperandsAreAlwaysChecked : Prop :=
  ∀ (s : State) (k : Nat) (m0 m1 : Mode) (p0 p1 : Int) (i : Instr), s.active = some k →
    i = .jt m0 m1 p0 p1 ∨ i = .jf m0 m1 p0 p1 →
    (m0 = .position → ¬ (s.vm k).mem.InBounds p0 →
      exec i s = .next (s.commitVm k ((s.vm k).raise ⟨.outOfBounds, p0, 0⟩))) ∧
    ((m0 = .position → (s.vm k).mem.InBounds p0) → m1 = .position → ¬ (s.vm k).mem.InBounds p1 →
      exec i s = .next (s.commitVm k ((s.vm k).raise ⟨.outOfBounds, p1, 0⟩)))

/-- HALT (rule R96): the lifecycle state becomes `Halted` and nothing else of the VM changes; a 99 in
the last word of memory halts. -/
def Obligations.HaltKeepsEverythingElse : Prop :=
  (∀ (s : State) (k : Nat), s.active = some k →
    exec .halt s = .next (s.commitVm k { s.vm k with state := .halted })) ∧
  (∀ (s : State) (k : Nat), s.HostSilent → s.active = some k →
    (s.vm k).mem.read (s.vm k).ip = .ok 99 →
    step s = .next (s.commitVm k { s.vm k with state := .halted }))

/-! ## Frames -/

/-- ADD, MUL, LT and EQ change nothing outside their VM, and of their VM only the target word, `ip`,
and on a fault the lifecycle state and the error record (rules R22 and R44). -/
def Obligations.ArithmeticFrame : Prop :=
  ∀ (s t : State) (k : Nat) (m0 m1 m2 : Mode) (p0 p1 p2 : Int) (i : Instr), s.active = some k →
    i = .add m0 m1 m2 p0 p1 p2 ∨ i = .mul m0 m1 m2 p0 p1 p2 ∨
      i = .lt m0 m1 m2 p0 p1 p2 ∨ i = .eq m0 m1 m2 p0 p1 p2 →
    exec i s = .next t →
    s.OnlyVm t k ∧ (t.vm k).inQ = (s.vm k).inQ ∧ (t.vm k).outQ = (s.vm k).outQ ∧
    (t.vm k).mem.length = (s.vm k).mem.length ∧
    (∀ x, target (s.vm k).mem p2 ≠ .ok x → (t.vm k).mem.read x = (s.vm k).mem.read x) ∧
    ((t.vm k).state ≠ .faulted → (t.vm k).state = (s.vm k).state ∧ (t.vm k).err = (s.vm k).err)

/-- IN changes nothing outside its VM, and of its VM only the target word, `ip`, the input queue and the
lifecycle state, and on a fault the error record. -/
def Obligations.InFrame : Prop :=
  ∀ (s t : State) (k : Nat) (m0 : Mode) (p0 : Int), s.active = some k →
    exec (.inp m0 p0) s = .next t →
    s.OnlyVm t k ∧ (t.vm k).outQ = (s.vm k).outQ ∧
    (t.vm k).mem.length = (s.vm k).mem.length ∧
    (∀ x, target (s.vm k).mem p0 ≠ .ok x → (t.vm k).mem.read x = (s.vm k).mem.read x) ∧
    ((t.vm k).state ≠ .faulted → (t.vm k).err = (s.vm k).err)

/-- OUT stores nothing: every address reads as before, and the input queue stays. -/
def Obligations.OutFrame : Prop :=
  ∀ (s t : State) (k : Nat) (m0 : Mode) (p0 : Int), s.active = some k →
    exec (.out m0 p0) s = .next t →
    s.OnlyVm t k ∧ (t.vm k).inQ = (s.vm k).inQ ∧ (t.vm k).mem.length = (s.vm k).mem.length ∧
    (∀ x, (t.vm k).mem.read x = (s.vm k).mem.read x) ∧
    ((t.vm k).state ≠ .faulted → (t.vm k).err = (s.vm k).err)

/-- JT, JF and HALT store nothing and use no queue; JT and JF leave the lifecycle state unless they
fault. -/
def Obligations.ControlFrame : Prop :=
  ∀ (s t : State) (k : Nat) (m0 m1 : Mode) (p0 p1 : Int) (i : Instr), s.active = some k →
    i = .jt m0 m1 p0 p1 ∨ i = .jf m0 m1 p0 p1 ∨ i = .halt →
    exec i s = .next t →
    s.OnlyVm t k ∧ (t.vm k).inQ = (s.vm k).inQ ∧ (t.vm k).outQ = (s.vm k).outQ ∧
    (t.vm k).mem.length = (s.vm k).mem.length ∧
    (∀ x, (t.vm k).mem.read x = (s.vm k).mem.read x) ∧
    ((t.vm k).state ≠ .faulted → (t.vm k).err = (s.vm k).err) ∧
    (i ≠ .halt → (t.vm k).state ≠ .faulted → (t.vm k).state = (s.vm k).state)

/-! ## Fetch and step -/

/-- When the words at `ip` decode to an instruction, the step is that instruction's execution; the step
adds nothing around it (rules R69 to R72).  The host's letting a block step pass changes only the list
of its moves (log 5). -/
def Obligations.StepRunsDecodedInstruction : Prop :=
  ∀ (s : State) (k : Nat) (i : Instr) (rest : List Int), s.active = some k →
    (s.vm k).mem.InBounds (s.vm k).ip →
    decode ((s.vm k).mem.drop (s.vm k).ip.toNat) = .ok (i, rest) →
    (s.hostMoves = [] → step s = exec i s) ∧
    (∀ moves, s.hostMoves = .blockStep :: moves → step s = exec i { s with hostMoves := moves })

/-- Rules R70 and R93: an `ip` outside memory, negative included, faults at the fetch with
`OutOfBounds(ip)`. -/
def Obligations.FetchOutsideMemoryFaults : Prop :=
  ∀ (s : State) (k : Nat), s.HostSilent → s.active = some k → ¬ (s.vm k).mem.InBounds (s.vm k).ip →
    step s = .next (s.commitVm k { s.vm k with
      state := .faulted, err := ⟨.outOfBounds, (s.vm k).ip, 0⟩ })

/-- Rules R65 and R71: a word that is not valid faults with `InvalidInstruction(ip, w)`. -/
def Obligations.InvalidWordFaults : Prop :=
  ∀ (s : State) (k : Nat) (w : Int), s.HostSilent → s.active = some k →
    (s.vm k).mem.read (s.vm k).ip = .ok w → validWord w = false →
    step s = .next (s.commitVm k { s.vm k with
      state := .faulted, err := ⟨.invalidInstruction, (s.vm k).ip, w⟩ })

/-- Rules R54 and R72: an instruction whose last words would lie beyond memory faults at its first
missing parameter, which is the address `L`. -/
def Obligations.MissingParameterFaults : Prop :=
  ∀ (s : State) (k : Nat) (w : Int) (roles : List Role), s.HostSilent → s.active = some k →
    (s.vm k).mem.read (s.vm k).ip = .ok w → validWord w = true → rolesOf (opcodeOf w) = some roles →
    ((s.vm k).mem.length : Int) ≤ (s.vm k).ip + roles.length →
    step s = .next (s.commitVm k { s.vm k with
      state := .faulted, err := ⟨.outOfBounds, ((s.vm k).mem.length : Int), 0⟩ })

/-- Rules R17, R28 and R129: a step that leaves its VM `Faulted` makes no other effect: memory, `ip` and
both queues are as before, the kind is one a VM raises, and nothing outside the VM changes. -/
def Obligations.FaultsArePrecise : Prop :=
  ∀ (s t : State) (k : Nat), s.HostSilent → s.active = some k → step s = .next t →
    (t.vm k).state = .faulted →
    s.OnlyVm t k ∧ t.vm k = { s.vm k with state := .faulted, err := (t.vm k).err } ∧
    (t.vm k).err.kind.IsVmFault

/-- Rules R77, R87 to R92 and R94 to R96: the step of a `Running` VM is the spec's reference step, which
splits the instruction word with the decoder's own functions and is otherwise written out apart from
decoder, operands and meanings.  Putting the VM back also answers a standalone RUN that has returned,
which is the model's reading (log 5 and 7). -/
def Obligations.StepIsReferenceStep : Prop :=
  ∀ (s : State) (k : Nat), s.HostSilent → s.active = some k →
    step s = .next (s.commitVm k (refStep s.params (s.vm k)))

/-- Every step answers a next state: no data, instruction or transaction stops the machine (rules R69,
R103, R111 and R112). -/
def Obligations.StepAlwaysAnswersNext : Prop :=
  ∀ s : State, ∃ t, step s = .next t

/-! ## Whole-machine rules -/

/-- Rules R9, R13, R28 to R30, R34 and R85: the invariant is kept by every step.  With it at most one VM
is `Running` at any time. -/
def Obligations.StepKeepsInvariant : Prop :=
  ∀ s t : State, s.Inv → step s = .next t → t.Inv

/-- The state after RESET meets the invariant, for all legal parameters (rules R6 to R11 and R38).  The
default parameters are legal; of these `MEM_CAP` is the model's choice (log 3). -/
def Obligations.ResetMeetsInvariant : Prop :=
  Config.defaults.Legal ∧ ∀ p : Params, p.Legal → (State.resetWith p).Inv

/-- Rule R27: the lifecycle transitions a step makes are the legal ones.  Only RESET and START take a VM
to `Absent`, and only START takes one to `Ready`: it makes two transitions at once, to `Absent` and on. -/
def Obligations.LifecycleMovesAreLegal : Prop :=
  ∀ (s t : State) (i : Nat), step s = .next t →
    (t.vm i).state = (s.vm i).state ∨
    ((∃ rest, s.hostMoves = .transaction .reset :: rest) ∧ (t.vm i).state = .absent) ∨
    ((∃ rest, s.hostMoves = .transaction .start :: rest) ∧
      ((t.vm i).state = .absent ∨ (t.vm i).state = .ready)) ∨
    ((s.vm i).state.mayBecome (t.vm i).state = true ∧
      (t.vm i).state ≠ .absent ∧ (t.vm i).state ≠ .ready)

/-- Rules R81 and R130: no block step changes the memory, `ip`, lifecycle state or error record of a
`Halted` or `Faulted` VM, and neither does a transaction other than RESET and START. -/
def Obligations.TerminalVmsStay : Prop :=
  ∀ (s t : State) (i : Nat), step s = .next t → (s.vm i).state.Terminal →
    (∀ rest, s.hostMoves ≠ .transaction .reset :: rest) →
    (∀ rest, s.hostMoves ≠ .transaction .start :: rest) →
    (s.vm i).SameCore (t.vm i)

/-- Rules R23 and R47: no block step changes the length of any memory, and only the active VM's memory
can change. -/
def Obligations.MemoryBelongsToItsVm : Prop :=
  ∀ (s t : State) (i : Nat), s.HostSilent → step s = .next t →
    (t.vm i).mem.length = (s.vm i).mem.length ∧
    (s.active ≠ some i → (t.vm i).mem = (s.vm i).mem ∧ (t.vm i).ip = (s.vm i).ip)

/-- Rules R32 and R141: the program image is written only by LOAD and RESET, and the parameters by
nothing. -/
def Obligations.OnlyLoadWritesProgram : Prop :=
  ∀ s t : State, step s = .next t →
    t.params = s.params ∧
    (t.prog = s.prog ∨
      (∃ seq rest, s.hostMoves = .transaction (.load seq) :: rest ∧ t.prog = seq) ∨
      (∃ rest, s.hostMoves = .transaction .reset :: rest ∧ t.prog = []))

/-- Rules R112 and R123: of a VM the host can change only the input queue (PUSH), the output queue (POP)
and, by RUN, whether it is `Running`, except by RESET and START, which destroy it. -/
def Obligations.HostLeavesVmsAlone : Prop :=
  ∀ (s s' : State) (tx : Txn) (rest : List HostMove) (i : Nat),
    s.hostMoves = .transaction tx :: rest → step s = .next s' → tx ≠ .reset → tx ≠ .start →
    (s'.vm i).mem = (s.vm i).mem ∧ (s'.vm i).ip = (s.vm i).ip ∧ (s'.vm i).err = (s.vm i).err ∧
    ((s'.vm i).state = (s.vm i).state ∨ (tx = .run ∧ (s.vm i).state.mayBecome (s'.vm i).state = true)) ∧
    ((s'.vm i).inQ = (s.vm i).inQ ∨ ∃ v, tx = .push v ∧ (s'.vm i).inQ = (s.vm i).inQ ++ [v]) ∧
    ((s'.vm i).outQ = (s.vm i).outQ ∨ (tx = .pop ∧ (s'.vm i).outQ = (s.vm i).outQ.tail))

/-- Rules R109 and R121: the block's own steps write `net_err` only at a send or a collect, and then the
network run ends in `ERROR`; in standalone mode no error of the network is raised. -/
def Obligations.OnlySendAndCollectRaiseNetworkErrors : Prop :=
  ∀ s t : State, s.HostSilent → step s = .next t → t.netErr ≠ s.netErr →
    (s.netState = .turnSend ∨ s.netState = .turnCollect) ∧ t.netState = .error

/-! ## The orchestrator -/

/-- Rule R98, by START in network mode: `N` fresh VMs with a copy of the program and their phase as
first input, and the orchestrator's registers at their launch values. -/
def Obligations.StartLaunchesNetwork : Prop :=
  ∀ (s : State) (rest : List HostMove), s.hostMoves = .transaction .start :: rest →
    s.blkMode = .network → s.busy = false →
    ∃ t, step s = .next t ∧ t.hostAnswers = s.hostAnswers ++ [.ok] ∧ t.hostMoves = rest ∧
      t.vms.length = s.params.n ∧
      (∀ i, i < s.params.n → t.vm i =
        ⟨s.prog, 0, .ready, ⟨.none, 0, 0⟩, [s.phase.getD i 0], []⟩) ∧
      t.signal = 0 ∧ t.sigValid = true ∧ t.turn = 0 ∧ t.passCount = 0 ∧ t.result = 0 ∧
      t.netErr = ⟨.none, 0, 0, 0⟩ ∧ t.netState = .turnSend ∧
      t.params = s.params ∧ t.blkMode = s.blkMode ∧ t.prog = s.prog ∧ t.feedback = s.feedback ∧
      t.phase = s.phase

/-- Rule R99: a send into a full queue ends the run; otherwise the signal is pushed when there is one to
forward, and the VM is called when its lifecycle state allows it. -/
def Obligations.SendForwardsSignal : Prop :=
  ∀ s : State, s.HostSilent → s.netState = .turnSend →
    (s.sigValid = true → queueFull s.params.qCap (s.vm s.turn).inQ = true →
      step s = .next { s with
        netErr := ⟨.queueOverflow, (s.vm s.turn).ip, 0, s.turn⟩, netState := .error }) ∧
    (s.sigValid = true → queueFull s.params.qCap (s.vm s.turn).inQ = false →
      step s = .next { s.setVm s.turn { s.vm s.turn with
          inQ := (s.vm s.turn).inQ ++ [s.signal]
          state := if (s.vm s.turn).state ∈ [VmState.ready, .awaitingInput, .yielded] then .running
            else (s.vm s.turn).state } with netState := .turnRun }) ∧
    (s.sigValid = false →
      step s = .next { s.setVm s.turn { s.vm s.turn with
          state := if (s.vm s.turn).state ∈ [VmState.ready, .awaitingInput, .yielded] then .running
            else (s.vm s.turn).state } with netState := .turnRun })

/-- Rule R100: while `VM[turn]` runs, each block step is a step of it and changes no other VM and no
orchestrator register; when it no longer runs, the next block step only goes to `TURN_COLLECT`. -/
def Obligations.RunStepsOnlyTheVisitedVm : Prop :=
  ∀ s : State, s.HostSilent → s.netState = .turnRun →
    ((s.vm s.turn).state = .running →
      ∃ t, step s = .next t ∧ step s = s.vmStep s.turn ∧ s.SameBlock t ∧
        t.hostAnswers = s.hostAnswers ∧ ∀ j, j ≠ s.turn → t.vm j = s.vm j) ∧
    ((s.vm s.turn).state ≠ .running → step s = .next { s with netState := .turnCollect })

/-- Rule R101: fault propagation, forwarding the oldest output, drain, starvation, in this order, and
then the next turn or the end of the pass. -/
def Obligations.CollectTakesOneOutput : Prop :=
  ∀ s : State, s.HostSilent → s.netState = .turnCollect →
    ((s.vm s.turn).state = .faulted →
      step s = .next { s with
        netErr := ⟨(s.vm s.turn).err.kind, (s.vm s.turn).err.address, (s.vm s.turn).err.word, s.turn⟩
        netState := .error }) ∧
    (∀ x rest, (s.vm s.turn).state ≠ .faulted → (s.vm s.turn).outQ = x :: rest →
      (s.turn + 1 < s.params.n →
        step s = .next { s.setVm s.turn { s.vm s.turn with outQ := rest } with
          signal := x, sigValid := true, turn := s.turn + 1, netState := .turnSend }) ∧
      (¬ s.turn + 1 < s.params.n →
        step s = .next { s.setVm s.turn { s.vm s.turn with outQ := rest } with
          signal := x, sigValid := true, netState := .passEnd })) ∧
    ((s.vm s.turn).state = .halted → (s.vm s.turn).outQ = [] →
      (s.turn + 1 < s.params.n →
        step s = .next { s with sigValid := false, turn := s.turn + 1, netState := .turnSend }) ∧
      (¬ s.turn + 1 < s.params.n →
        step s = .next { s with sigValid := false, netState := .passEnd })) ∧
    ((s.vm s.turn).state ≠ .faulted → (s.vm s.turn).state ≠ .halted → (s.vm s.turn).outQ = [] →
      step s = .next { s with
        netErr := ⟨.inputStarved, (s.vm s.turn).ip, 0, s.turn⟩, netState := .error })

/-- Rule R102: the end of a pass, which reads only the last VM's lifecycle state. -/
def Obligations.PassEndStopsOrRepeats : Prop :=
  ∀ s : State, s.HostSilent → s.netState = .passEnd →
    ((s.feedback = false ∨ (s.vm (s.params.n - 1)).state = .halted) →
      step s = .next { s with passCount := s.passCount + 1, result := s.signal, netState := .done }) ∧
    (¬ (s.feedback = false ∨ (s.vm (s.params.n - 1)).state = .halted) →
      step s = .next { s with passCount := s.passCount + 1, turn := 0, netState := .turnSend })

/-- Rule R103: in `DONE` and `ERROR` the block changes nothing on its own, and neither does it in `IDLE`
when no standalone VM is `Running`.  That the step answers the same state, and not a stop, is the
model's (log 6). -/
def Obligations.FinalStatesHaveNoStep : Prop :=
  ∀ s : State, s.HostSilent →
    (s.netState = .done ∨ s.netState = .error → step s = .next s) ∧
    (s.netState = .idle → s.busy = false → step s = .next s)

/-- Rule R111: the orchestrator never waits: `TURN_SEND`, `TURN_COLLECT` and `PASS_END` are left by every
step, and `TURN_RUN` by every step at which `VM[turn]` is not `Running`. -/
def Obligations.OrchestratorNeverWaits : Prop :=
  ∀ s : State, s.HostSilent → s.netBusy = true →
    (s.netState = .turnRun → (s.vm s.turn).state ≠ .running) →
    ∃ t, step s = .next t ∧ t.netState ≠ s.netState ∧ t.hostMoves = []

/-- Rule R104: whenever the spec's sequential procedure returns from a launched network, the machine
reaches the same end by its own steps, with the same result or error and the same count of passes. -/
def Obligations.NetworkRunIsReferenceRun : Prop :=
  ∀ (s : State) (fuel passes count : Nat) (e : RefEnd), s.HostSilent → s.netState = .turnSend →
    s.turn = 0 → 1 ≤ s.params.n → s.vms.length = s.params.n →
    refNetwork fuel passes s = some (e, count) →
    ∃ (k : Nat) (t : State), Host.Core.run Sys2Proof.core k s = .next t ∧ t.passCount = count ∧
      (∀ v, e = .done v → t.netState = .done ∧ t.result = v) ∧
      (∀ r, e = .error r → t.netState = .error ∧ t.netErr = r ∧ t.result = s.result)

/-! ## Reset and the host interface -/

/-- Rules R38, R140 and R141: RESET sets every field to its reset value in one step from every state, a
run in progress included, and keeps the parameters.  That the host's further moves and its answers stay
is the model's (log 22). -/
def Obligations.ResetSetsEveryField : Prop :=
  ∀ (s : State) (rest : List HostMove), s.hostMoves = .transaction .reset :: rest →
    step s = .next
      { params := s.params, blkMode := .none, prog := [], feedback := false
        phase := List.replicate s.params.n 0, netState := .idle, turn := 0, passCount := 0
        signal := 0, sigValid := false, result := 0, netErr := ⟨.none, 0, 0, 0⟩
        vms := List.replicate s.params.n ⟨[], 0, .absent, ⟨.none, 0, 0⟩, [], []⟩
        hostMoves := rest, hostAnswers := s.hostAnswers ++ [.ok] }

/-- Rules R103, R112, R118 and R123: a transaction whose precondition fails changes nothing and answers
`REFUSED`.  PUSH, RUN and POP fail outside standalone mode and while `VM[0]` is `Running`; PUSH into a
full queue; RUN where there is no `VM[0]`; MEMREAD where there is no such VM, and outside its memory
(log 13).  Where `net_state` is not `IDLE`, a PUSH, a RUN that would execute `VM[0]` and a POP that would
take a value fail too: the table of rule R112 does not say so, it is read from rules R103 and R123
(log 9).  The preconditions of the other transactions are those of `BusyBlockRefuses`,
`LoadAndConfigureWrite`, `StartBuildsStandaloneVm` and `ReadsChangeNothing`. -/
def Obligations.RefusedTransactionChangesNothing : Prop :=
  (∀ (s : State) (tx : Txn) (rest : List HostMove) (r : HostRefusal),
    s.hostMoves = .transaction tx :: rest → s.refusal tx = some r →
    step s = .next { s with hostMoves := rest, hostAnswers := s.hostAnswers ++ [.refused r] }) ∧
  (∀ (s : State) (v : Int) (tx : Txn), tx = .push v ∨ tx = .run ∨ tx = .pop →
    s.blkMode ≠ .standalone ∨ (s.vm 0).state = .running →
    ∃ r, s.refusal tx = some r) ∧
  (∀ s : State, s.netState ≠ .idle →
    (∀ v, ∃ r, s.refusal (.push v) = some r) ∧
    ((s.vm 0).state ∈ [VmState.ready, .awaitingInput, .yielded] → ∃ r, s.refusal .run = some r) ∧
    ((s.vm 0).outQ ≠ [] → ∃ r, s.refusal .pop = some r)) ∧
  (∀ (s : State) (v : Int), queueFull s.params.qCap (s.vm 0).inQ = true →
    ∃ r, s.refusal (.push v) = some r) ∧
  (∀ s : State, (s.vm 0).state = .absent → ∃ r, s.refusal .run = some r) ∧
  (∀ (s : State) (i : Nat) (a : Int), (s.vm i).state = .absent ∨ ¬ (s.vm i).mem.InBounds a →
    ∃ r, s.refusal (.memread i a) = some r)

/-- Rule R113: LOAD, CONFIGURE, START and MEMREAD are refused while the block is busy, which is when a
network run is in progress or `VM[0]` runs in standalone mode. -/
def Obligations.BusyBlockRefuses : Prop :=
  ∀ s : State,
    (s.busy = true ↔
      (s.netState ∈ [NetState.turnSend, .turnRun, .turnCollect, .passEnd] ∨
        (s.blkMode = .standalone ∧ (s.vm 0).state = .running))) ∧
    (s.busy = true → ∀ seq mode fb phase i a tx,
      tx = .load seq ∨ tx = .configure mode fb phase ∨ tx = .start ∨ tx = .memread i a →
      ∃ r, s.refusal tx = some r)

/-- Rules R112, R114 and R115: LOAD and CONFIGURE, when the block is not busy. -/
def Obligations.LoadAndConfigureWrite : Prop :=
  ∀ (s : State) (rest : List HostMove), s.busy = false →
    (∀ seq, s.hostMoves = .transaction (.load seq) :: rest → seq.length ≤ s.params.memCap →
      AllRepresentable s.params.width seq →
      step s = .next { s with
        prog := seq, hostMoves := rest, hostAnswers := s.hostAnswers ++ [.ok] }) ∧
    (∀ seq, s.hostMoves = .transaction (.load seq) :: rest → s.params.memCap < seq.length →
      ∃ r, step s = .next { s with hostMoves := rest, hostAnswers := s.hostAnswers ++ [.refused r] }) ∧
    (∀ mode fb phase, s.hostMoves = .transaction (.configure mode fb phase) :: rest →
      phase.length = s.params.n → AllRepresentable s.params.width phase →
      step s = .next { s with
        blkMode := mode, feedback := fb, phase := phase
        hostMoves := rest, hostAnswers := s.hostAnswers ++ [.ok] })

/-- Rule R116, standalone: `VM[0]` alone is constructed from the program, nothing is pushed, and
`net_state` is `IDLE`, also when it was `DONE` or `ERROR` (log 8).  With `blk_mode = NONE` START is
refused; the reason's name is the model's (log 10). -/
def Obligations.StartBuildsStandaloneVm : Prop :=
  ∀ (s : State) (rest : List HostMove), s.hostMoves = .transaction .start :: rest → s.busy = false →
    (s.blkMode = .standalone →
      ∃ t, step s = .next t ∧ t.hostAnswers = s.hostAnswers ++ [.ok] ∧ t.netState = .idle ∧
        t.vms.length = s.params.n ∧
        (1 ≤ s.params.n → t.vm 0 = ⟨s.prog, 0, .ready, ⟨.none, 0, 0⟩, [], []⟩) ∧
        (∀ i, 1 ≤ i → (t.vm i).state = .absent) ∧ t.prog = s.prog ∧ t.blkMode = .standalone) ∧
    (s.blkMode = .none →
      step s = .next { s with
        hostMoves := rest, hostAnswers := s.hostAnswers ++ [.refused .notConfigured] })

/-- Rules R120 and R122: PUSH appends to `VM[0]`'s input queue, POP takes the oldest output or answers
`EMPTY`.  Where `net_state` is not `IDLE`, a PUSH and a POP that would take a value are refused:
`RefusedTransactionChangesNothing`, log 9. -/
def Obligations.PushAppendsAndPopTakesOldest : Prop :=
  ∀ (s : State) (rest : List HostMove), s.blkMode = .standalone → (s.vm 0).state ≠ .running →
    (∀ v, s.hostMoves = .transaction (.push v) :: rest → s.netState = .idle →
      s.params.width.Representable v → queueFull s.params.qCap (s.vm 0).inQ = false →
      step s = .next { s.setVm 0 { s.vm 0 with inQ := (s.vm 0).inQ ++ [v] } with
        hostMoves := rest, hostAnswers := s.hostAnswers ++ [.ok] }) ∧
    (∀ v q, s.hostMoves = .transaction .pop :: rest → s.netState = .idle → (s.vm 0).outQ = v :: q →
      step s = .next { s.setVm 0 { s.vm 0 with outQ := q } with
        hostMoves := rest, hostAnswers := s.hostAnswers ++ [.value v] }) ∧
    (s.hostMoves = .transaction .pop :: rest → (s.vm 0).outQ = [] →
      step s = .next { s with hostMoves := rest, hostAnswers := s.hostAnswers ++ [.empty] })

/-- Rules R78, R80, R81 and R121: RUN makes a `Ready`, `AwaitingInput` or `Yielded` VM `Running` with
its memory, `ip` and queues as they are; on a `Halted` or `Faulted` VM it changes nothing and answers
that state at once, also after a network run.  That the first case is answered later is log 7.  Where
`net_state` is not `IDLE` the first case is refused: `RefusedTransactionChangesNothing`, log 9. -/
def Obligations.RunResumesOrReturnsAtOnce : Prop :=
  ∀ (s : State) (rest : List HostMove), s.hostMoves = .transaction .run :: rest →
    s.blkMode = .standalone →
    (s.netState = .idle → (s.vm 0).state ∈ [VmState.ready, .awaitingInput, .yielded] →
      step s = .next { s.setVm 0 { s.vm 0 with state := .running } with hostMoves := rest }) ∧
    ((s.vm 0).state.Terminal →
      step s = .next { s with
        hostMoves := rest, hostAnswers := s.hostAnswers ++ [.ran (s.vm 0).state] })

/-- Rules R117 and R118: MEMREAD answers the word and STATUS the field; they change nothing, and STATUS
is answered while the block is busy too.  The `L` that bounds MEMREAD's address is the length of that
VM's memory, which is the model's reading (log 13). -/
def Obligations.ReadsChangeNothing : Prop :=
  ∀ (s : State) (rest : List HostMove),
    (∀ i a x, s.hostMoves = .transaction (.memread i a) :: rest → s.busy = false →
      (s.vm i).state ≠ .absent → (s.vm i).mem.read a = .ok x →
      step s = .next { s with hostMoves := rest, hostAnswers := s.hostAnswers ++ [.value x] }) ∧
    (∀ index v, s.hostMoves = .transaction (.status index) :: rest → s.statusField index = some v →
      step s = .next { s with hostMoves := rest, hostAnswers := s.hostAnswers ++ [.field v] }) ∧
    (∀ index, s.hostMoves = .transaction (.status index) :: rest → s.statusField index = none →
      ∃ r, step s = .next { s with hostMoves := rest, hostAnswers := s.hostAnswers ++ [.refused r] })

/-- The codes of rules R26, R33, R34 and R126, and the index map of rule R36 where no index names two
fields (`N ≤ 32`; log 12). -/
def Obligations.StatusIndicesNameTheirFields : Prop :=
  ([VmState.ready, .running, .awaitingInput, .yielded, .halted, .faulted, .absent].map VmState.code =
    [0, 1, 2, 3, 4, 5, 6]) ∧
  ([BlkMode.none, .standalone, .network].map BlkMode.code = [0, 1, 2]) ∧
  ([NetState.idle, .turnSend, .turnRun, .turnCollect, .passEnd, .done, .error].map NetState.code =
    [0, 1, 2, 3, 4, 5, 6]) ∧
  ([ErrKind.none, .invalidInstruction, .outOfBounds, .inputStarved, .overflow, .queueOverflow].map
    ErrKind.code = [0, 1, 2, 3, 4, 5]) ∧
  ∀ s : State, s.params.n ≤ 32 →
    (∀ i, i < s.params.n →
      s.statusField (32 + i) = some (.word (s.phase.getD i 0)) ∧
      s.statusField (64 + 8 * i) = some (.natural (s.vm i).state.code) ∧
      s.statusField (64 + 8 * i + 1) = some (.word (s.vm i).ip) ∧
      s.statusField (64 + 8 * i + 2) = some (.natural (s.vm i).err.kind.code) ∧
      s.statusField (64 + 8 * i + 3) = some (.word (s.vm i).err.address) ∧
      s.statusField (64 + 8 * i + 4) = some (.word (s.vm i).err.word) ∧
      s.statusField (64 + 8 * i + 5) = some (.natural (s.vm i).inQ.length) ∧
      s.statusField (64 + 8 * i + 6) = some (.natural (s.vm i).outQ.length) ∧
      s.statusField (64 + 8 * i + 7) = none) ∧
    s.statusField 0 = some (.natural s.blkMode.code) ∧
    s.statusField 1 = some (.natural s.netState.code) ∧
    s.statusField 2 = some (.natural s.turn) ∧ s.statusField 3 = some (.natural s.passCount) ∧
    s.statusField 4 = some (.word s.signal) ∧ s.statusField 5 = some (.flag s.sigValid) ∧
    s.statusField 6 = some (.word s.result) ∧ s.statusField 7 = some (.natural s.netErr.kind.code) ∧
    s.statusField 8 = some (.word s.netErr.address) ∧ s.statusField 9 = some (.word s.netErr.word) ∧
    s.statusField 10 = some (.natural s.netErr.vm) ∧ s.statusField 11 = some (.flag s.feedback) ∧
    s.statusField 12 = some (.natural s.prog.length) ∧ s.statusField 13 = some (.params s.params) ∧
    (∀ index, 14 ≤ index → index < 32 → s.statusField index = none) ∧
    (∀ index, 32 + s.params.n ≤ index → index < 64 → s.statusField index = none) ∧
    (∀ index, 64 + 8 * s.params.n ≤ index → s.statusField index = none)

/-- Rule R144: START with an empty image is allowed, and the first fetch faults `OutOfBounds(0)`: in
standalone mode `VM[0]` is `Faulted` after START, RUN and one block step, and in network mode the run
ends in `ERROR` at the first turn.  The count of steps from START rests on the launch being START's own
step (log 23), and the answer to RUN on log 7. -/
def Obligations.EmptyImageFaultsAtZero : Prop :=
  ∀ s : State, s.params.Legal → s.prog = [] → s.busy = false →
    (s.blkMode = .standalone → s.hostMoves = [.transaction .start, .transaction .run] →
      ∃ t : State, Host.Core.run Sys2Proof.core 3 s = .next t ∧
        t.vm 0 = ⟨[], 0, .faulted, ⟨.outOfBounds, 0, 0⟩, [], []⟩ ∧
        t.hostAnswers = s.hostAnswers ++ [.ok, .ran .faulted]) ∧
    (s.blkMode = .network → s.hostMoves = [.transaction .start] →
      ∃ t : State, Host.Core.run Sys2Proof.core 5 s = .next t ∧
        (t.vm 0).state = .faulted ∧ t.netState = .error ∧ t.netErr = ⟨.outOfBounds, 0, 0, 0⟩)

/-- Rule R125: the search over no candidates answers `NoCandidates`, and the first run that ends in
`ERROR` aborts it with that error, whatever the later permutations are.  Each run is taken as it is when
made first after the program is loaded.  The bound on the steps of a run is the model's (log 20). -/
def Obligations.SearchAbortsOnNetworkError : Prop :=
  ∀ (fuel : Nat) (s s0 : State) (program : List Int) (fb : Bool), s.request (.load program) = .ok s0 →
    s.bestSignal fuel program fb [] = .noCandidates ∧
    ∀ (pre post : List (List Int)) (perm : List Int) (e : NetErr),
      (∀ p ∈ pre, ∃ t, s0.networkRun fuel fb p = .ok t ∧ t.netState = .done) →
      s0.networkRun fuel fb perm = .error (.networkError e) →
      s.bestSignal fuel program fb (pre ++ perm :: post) = .networkError e

/-- Rules R32 and R125: every run of a search starts from a fresh copy of the program, so each
permutation gives the result it gives when it is run first, and the search answers the greatest of
them. -/
def Obligations.SearchAnswersGreatestResult : Prop :=
  ∀ (fuel : Nat) (s s0 : State) (program : List Int) (fb : Bool) (perms : List (List Int)) (v : Int),
    s.request (.load program) = .ok s0 → s.bestSignal fuel program fb perms = .best v →
    (∀ p ∈ perms, ∃ t, s0.networkRun fuel fb p = .ok t ∧ t.netState = .done ∧ t.result ≤ v) ∧
    (∃ p ∈ perms, ∃ t, s0.networkRun fuel fb p = .ok t ∧ t.result = v)

/-! ## Block steps while the host's moves wait, and the VMs of a run that has ended -/

/-- A block step that the host lets happen before its further moves is the step of the same state with no
move to come, and leaves those moves as they were (rule R112: a transaction happens between two block
steps, never inside one).  With this, the statements about a silent host hold of every block step.
Moves as a list are the model's (log 5). -/
def Obligations.BlockStepLeavesHostMoves : Prop :=
  ∀ (s : State) (rest : List HostMove), s.hostMoves = .blockStep :: rest →
    ∃ t, step { s with hostMoves := [] } = .next t ∧ t.hostMoves = [] ∧
      step s = .next { t with hostMoves := rest }

/-- Rules R103 and R123: in `DONE` and `ERROR` no step but a START or RESET transaction changes any VM,
its memory, lifecycle state and queues included, and `net_state` stays.  That a PUSH, RUN or POP that
would change `VM[0]` is refused for this is log 9. -/
def Obligations.EndedNetworkKeepsItsVms : Prop :=
  ∀ s t : State, s.netState = .done ∨ s.netState = .error → step s = .next t →
    (∀ rest, s.hostMoves ≠ .transaction .reset :: rest) →
    (∀ rest, s.hostMoves ≠ .transaction .start :: rest) →
    t.vms = s.vms ∧ t.netState = s.netState
end

