-- ==== Sys2Proof/Laws/Decode.lean ====
section
/-! SUPPORT. What the decoder's parts compute on non-negative words, and the opcode map read off. -/

namespace Sys2Proof

theorem pow10_pos (k : Nat) : 0 < pow10 k := by
  induction k with
  | zero => decide
  | succ k ih => simp only [pow10]; omega

/-- On a non-negative word the truncating remainder is the ordinary one (`00_scope.md` rule R14). -/
theorem opcodeOf_of_nonneg {w : Int} (h : 0 ≤ w) : opcodeOf w = w % 100 := Int.tmod_eq_emod_of_nonneg h

/-- On a non-negative word a mode digit is a decimal digit (rule R15). -/
theorem modeDigit_of_nonneg (k : Nat) {w : Int} (h : 0 ≤ w) : modeDigit k w = w / pow10 (2 + k) % 10 := by
  unfold modeDigit
  rw [Int.tmod_eq_emod_of_nonneg (Int.tdiv_nonneg h (pow10_pos _).le), Int.tdiv_eq_ediv_of_nonneg h]

/-- The opcode map, read off (rule R62). -/
theorem rolesOf_eq_some {op : Int} {roles : List Role} :
    rolesOf op = some roles ↔
      ((op = 1 ∨ op = 2 ∨ op = 7 ∨ op = 8) ∧ roles = [.value, .value, .target]) ∨
      (op = 3 ∧ roles = [.target]) ∨ (op = 4 ∧ roles = [.value]) ∨
      ((op = 5 ∨ op = 6) ∧ roles = [.value, .jump]) ∨ (op = 99 ∧ roles = []) := by
  constructor
  · intro h
    obtain ⟨r, hf, rfl⟩ := Option.map_eq_some_iff.1 h
    have hop : r.opcode = op := by simpa using List.find?_some hf
    have hmem : r ∈ opTable := List.mem_of_find?_eq_some hf
    subst hop
    clear h hf
    revert r
    decide
  · rintro (⟨rfl | rfl | rfl | rfl, rfl⟩ | ⟨rfl, rfl⟩ | ⟨rfl, rfl⟩ | ⟨rfl | rfl, rfl⟩ | ⟨rfl, rfl⟩) <;> rfl

/-- What a valid word is, in the terms of rule R59. -/
theorem validWord_iff {w : Int} :
    validWord w = true ↔
      0 ≤ w ∧ ∃ roles, rolesOf (opcodeOf w) = some roles ∧
        (∀ k, k < roles.length → modeDigit k w = 0 ∨ modeDigit k w = 1) ∧
        w / pow10 (2 + roles.length) = 0 := by
  unfold validWord
  by_cases h : 0 ≤ w
  · cases hr : rolesOf (opcodeOf w) with
    | none => simp
    | some roles => simp [h, Int.tdiv_eq_ediv_of_nonneg h]
  · simp [h]

end Sys2Proof
end

