-- ==== Sys2Proof/Laws/State.lean ====
section
/-! SUPPORT. The field lemmas of the state's updates: one for each field an update touches or leaves,
so that no later proof unfolds a record update; and which VM an index names after an update. -/

namespace Sys2Proof.Machine

variable (s : State) (k i : Nat) (v : Vm) (a : HostAnswer) (e : NetErr)

/-! ## `setVm` -/

@[simp] theorem State.setVm_params : (s.setVm k v).params = s.params := rfl
@[simp] theorem State.setVm_blkMode : (s.setVm k v).blkMode = s.blkMode := rfl
@[simp] theorem State.setVm_prog : (s.setVm k v).prog = s.prog := rfl
@[simp] theorem State.setVm_feedback : (s.setVm k v).feedback = s.feedback := rfl
@[simp] theorem State.setVm_phase : (s.setVm k v).phase = s.phase := rfl
@[simp] theorem State.setVm_netState : (s.setVm k v).netState = s.netState := rfl
@[simp] theorem State.setVm_turn : (s.setVm k v).turn = s.turn := rfl
@[simp] theorem State.setVm_passCount : (s.setVm k v).passCount = s.passCount := rfl
@[simp] theorem State.setVm_signal : (s.setVm k v).signal = s.signal := rfl
@[simp] theorem State.setVm_sigValid : (s.setVm k v).sigValid = s.sigValid := rfl
@[simp] theorem State.setVm_result : (s.setVm k v).result = s.result := rfl
@[simp] theorem State.setVm_netErr : (s.setVm k v).netErr = s.netErr := rfl
@[simp] theorem State.setVm_vms : (s.setVm k v).vms = s.vms.set k v := rfl
@[simp] theorem State.setVm_hostMoves : (s.setVm k v).hostMoves = s.hostMoves := rfl
@[simp] theorem State.setVm_hostAnswers : (s.setVm k v).hostAnswers = s.hostAnswers := rfl
@[simp] theorem State.setVm_netBusy : (s.setVm k v).netBusy = s.netBusy := rfl

/-! ## `answer` -/

@[simp] theorem State.answer_params : (s.answer a).params = s.params := rfl
@[simp] theorem State.answer_blkMode : (s.answer a).blkMode = s.blkMode := rfl
@[simp] theorem State.answer_prog : (s.answer a).prog = s.prog := rfl
@[simp] theorem State.answer_feedback : (s.answer a).feedback = s.feedback := rfl
@[simp] theorem State.answer_phase : (s.answer a).phase = s.phase := rfl
@[simp] theorem State.answer_netState : (s.answer a).netState = s.netState := rfl
@[simp] theorem State.answer_turn : (s.answer a).turn = s.turn := rfl
@[simp] theorem State.answer_passCount : (s.answer a).passCount = s.passCount := rfl
@[simp] theorem State.answer_signal : (s.answer a).signal = s.signal := rfl
@[simp] theorem State.answer_sigValid : (s.answer a).sigValid = s.sigValid := rfl
@[simp] theorem State.answer_result : (s.answer a).result = s.result := rfl
@[simp] theorem State.answer_netErr : (s.answer a).netErr = s.netErr := rfl
@[simp] theorem State.answer_vms : (s.answer a).vms = s.vms := rfl
@[simp] theorem State.answer_hostMoves : (s.answer a).hostMoves = s.hostMoves := rfl
@[simp] theorem State.answer_hostAnswers : (s.answer a).hostAnswers = s.hostAnswers ++ [a] := rfl
@[simp] theorem State.answer_vm : (s.answer a).vm i = s.vm i := rfl
@[simp] theorem State.answer_netBusy : (s.answer a).netBusy = s.netBusy := rfl
@[simp] theorem State.answer_active : (s.answer a).active = s.active := rfl

/-! ## `failNetwork` and `endRun` -/

@[simp] theorem State.failNetwork_params : (s.failNetwork e).params = s.params := rfl
@[simp] theorem State.failNetwork_blkMode : (s.failNetwork e).blkMode = s.blkMode := rfl
@[simp] theorem State.failNetwork_prog : (s.failNetwork e).prog = s.prog := rfl
@[simp] theorem State.failNetwork_feedback : (s.failNetwork e).feedback = s.feedback := rfl
@[simp] theorem State.failNetwork_phase : (s.failNetwork e).phase = s.phase := rfl
@[simp] theorem State.failNetwork_netState : (s.failNetwork e).netState = .error := rfl
@[simp] theorem State.failNetwork_turn : (s.failNetwork e).turn = s.turn := rfl
@[simp] theorem State.failNetwork_passCount : (s.failNetwork e).passCount = s.passCount := rfl
@[simp] theorem State.failNetwork_signal : (s.failNetwork e).signal = s.signal := rfl
@[simp] theorem State.failNetwork_sigValid : (s.failNetwork e).sigValid = s.sigValid := rfl
@[simp] theorem State.failNetwork_result : (s.failNetwork e).result = s.result := rfl
@[simp] theorem State.failNetwork_netErr : (s.failNetwork e).netErr = e := rfl
@[simp] theorem State.failNetwork_vms : (s.failNetwork e).vms = s.vms := rfl
@[simp] theorem State.failNetwork_hostMoves : (s.failNetwork e).hostMoves = s.hostMoves := rfl
@[simp] theorem State.failNetwork_hostAnswers : (s.failNetwork e).hostAnswers = s.hostAnswers := rfl
@[simp] theorem State.failNetwork_vm : (s.failNetwork e).vm i = s.vm i := rfl

@[simp] theorem State.endRun_netState : s.endRun.netState = .turnCollect := rfl
@[simp] theorem State.endRun_vms : s.endRun.vms = s.vms := rfl
@[simp] theorem State.endRun_vm : s.endRun.vm i = s.vm i := rfl

/-! ## Updates of one field, seen through `vm` -/

@[simp] theorem State.vm_with_hostMoves (x : List HostMove) : { s with hostMoves := x }.vm i = s.vm i := rfl
@[simp] theorem State.vm_with_netState (x : NetState) : { s with netState := x }.vm i = s.vm i := rfl
@[simp] theorem State.active_with_hostMoves (x : List HostMove) : { s with hostMoves := x }.active = s.active := rfl
@[simp] theorem State.netBusy_with_hostMoves (x : List HostMove) : { s with hostMoves := x }.netBusy = s.netBusy := rfl
@[simp] theorem State.busy_with_hostMoves (x : List HostMove) : { s with hostMoves := x }.busy = s.busy := rfl
@[simp] theorem State.usesVm_with_hostMoves (x : List HostMove) (t : Txn) : { s with hostMoves := x }.usesVm t = s.usesVm t := rfl
@[simp] theorem State.standaloneRefusal_with_hostMoves (x : List HostMove) (t : Txn) : { s with hostMoves := x }.standaloneRefusal t = s.standaloneRefusal t := rfl
@[simp] theorem State.refusal_with_hostMoves (x : List HostMove) (t : Txn) : { s with hostMoves := x }.refusal t = s.refusal t := rfl

/-! ## The fields of a VM's updates -/

@[simp] theorem Vm.raise_mem (r : VmErr) : (v.raise r).mem = v.mem := rfl
@[simp] theorem Vm.raise_ip (r : VmErr) : (v.raise r).ip = v.ip := rfl
@[simp] theorem Vm.raise_state (r : VmErr) : (v.raise r).state = .faulted := rfl
@[simp] theorem Vm.raise_err (r : VmErr) : (v.raise r).err = r := rfl
@[simp] theorem Vm.raise_inQ (r : VmErr) : (v.raise r).inQ = v.inQ := rfl
@[simp] theorem Vm.raise_outQ (r : VmErr) : (v.raise r).outQ = v.outQ := rfl

variable (t x n : Int)

@[simp] theorem Vm.storeAndAdvance_mem : (v.storeAndAdvance t x n).mem = v.mem.store t x := rfl
@[simp] theorem Vm.storeAndAdvance_ip : (v.storeAndAdvance t x n).ip = v.ip + n := rfl
@[simp] theorem Vm.storeAndAdvance_state : (v.storeAndAdvance t x n).state = v.state := rfl
@[simp] theorem Vm.storeAndAdvance_err : (v.storeAndAdvance t x n).err = v.err := rfl
@[simp] theorem Vm.storeAndAdvance_inQ : (v.storeAndAdvance t x n).inQ = v.inQ := rfl
@[simp] theorem Vm.storeAndAdvance_outQ : (v.storeAndAdvance t x n).outQ = v.outQ := rfl

/-- A `run()` call changes the lifecycle state only. -/
theorem Vm.call_eq : v.call = { v with state := v.call.state } := by
  unfold Vm.call; split <;> rfl

@[simp] theorem Vm.call_mem : v.call.mem = v.mem := by rw [Vm.call_eq]
@[simp] theorem Vm.call_ip : v.call.ip = v.ip := by rw [Vm.call_eq]
@[simp] theorem Vm.call_err : v.call.err = v.err := by rw [Vm.call_eq]
@[simp] theorem Vm.call_inQ : v.call.inQ = v.inQ := by rw [Vm.call_eq]
@[simp] theorem Vm.call_outQ : v.call.outQ = v.outQ := by rw [Vm.call_eq]

/-- After a `run()` call a VM is `Running` exactly when it was `Running` or could resume. -/
theorem Vm.call_state : v.call.state =
    if v.state = .ready ∨ v.state = .awaitingInput ∨ v.state = .yielded then .running else v.state := by
  unfold Vm.call; cases h : v.state <;> simp [h]

/-! ## Which VM an index names -/

/-- `VM[i]` after `VM[k]` was replaced. -/
theorem State.vm_setVm : (s.setVm k v).vm i = if i = k ∧ k < s.vms.length then v else s.vm i := by
  unfold State.vm State.setVm
  by_cases h : i = k
  · subst h
    by_cases hk : i < s.vms.length
    · simp [List.getD_eq_getElem?_getD, hk]
    · simp [List.getD_eq_getElem?_getD, hk]
  · simp [List.getD_eq_getElem?_getD, h, List.getElem?_set_ne (Ne.symm h)]

theorem State.vm_setVm_self (h : k < s.vms.length) : (s.setVm k v).vm k = v := by
  simp [State.vm_setVm, h]

theorem State.vm_setVm_of_ne (h : i ≠ k) : (s.setVm k v).vm i = s.vm i := by
  simp [State.vm_setVm, h]

/-- An index that names no VM reads as absent. -/
theorem State.vm_of_length_le (h : s.vms.length ≤ i) : s.vm i = Vm.absent := by
  simp [State.vm, List.getD_eq_getElem?_getD, h]

/-- Replacing a VM by itself changes nothing. -/
theorem State.setVm_vm : s.setVm k (s.vm k) = s := by
  cases s with
  | mk params blkMode prog feedback phase netState turn passCount signal sigValid result netErr vms hostMoves hostAnswers =>
    simp only [State.setVm, State.vm, State.mk.injEq, true_and, and_true]
    apply List.ext_getElem?
    intro i
    by_cases h : i = k
    · subst h
      by_cases hk : i < vms.length
      · simp [List.getD_eq_getElem?_getD, hk]
      · simp [hk]
    · rw [List.getElem?_set_ne (Ne.symm h)]

end Sys2Proof.Machine
end

