-- ==== Sys2Proof/Laws/Ops.lean ====
section
/-! SUPPORT. What each shared operation can do: one lemma per operation, cited instead of unfolding
it. -/

namespace Sys2Proof.Machine

/-! ## Memory -/

variable (m : Memory) (a b v : Int) (p : Params)

/-- An address in bounds is a place in the list. -/
theorem Memory.toNat_lt (h : m.InBounds a) : a.toNat < m.length := by
  obtain ⟨h0, h1⟩ := h
  omega

theorem Memory.read_of_inBounds (h : m.InBounds a) : m.read a = .ok (m.getD a.toNat 0) := if_pos h

theorem Memory.read_of_not_inBounds (h : ¬ m.InBounds a) : m.read a = .error (.outOfBounds a) := if_neg h

/-- A read answers a word only at an address of memory, and the word is one of memory's. -/
theorem Memory.read_ok {x : Int} (h : m.read a = .ok x) :
    m.InBounds a ∧ x = m.getD a.toNat 0 ∧ x ∈ m := by
  unfold Memory.read at h
  split at h
  · next hb =>
    cases h
    have hlt : a.toNat < m.length := Memory.toNat_lt m a hb
    refine ⟨hb, rfl, ?_⟩
    rw [List.getD_eq_getElem m 0 hlt]
    exact List.getElem_mem hlt
  · cases h

/-- A read that faults reports its own address. -/
theorem Memory.read_error {e : VmErr} (h : m.read a = .error e) : ¬ m.InBounds a ∧ e = .outOfBounds a := by
  unfold Memory.read at h
  split at h
  · cases h
  · next hb => cases h; exact ⟨hb, rfl⟩

@[simp] theorem Memory.store_length : (m.store a v).length = m.length := by simp [Memory.store]

/-- A write leaves every address in or out of bounds as it was. -/
theorem Memory.inBounds_store : (m.store a v).InBounds b ↔ m.InBounds b := by
  simp [Memory.InBounds]

/-- A read after a write to the same address gives the value written. -/
theorem Memory.read_store_self (h : m.InBounds a) : (m.store a v).read a = .ok v := by
  have hlt : a.toNat < m.length := Memory.toNat_lt m a h
  rw [Memory.read_of_inBounds _ _ ((Memory.inBounds_store m a a v).2 h)]
  simp [Memory.store, List.getD_eq_getElem?_getD, hlt]

/-- A write changes exactly the word it names (rule R44). -/
theorem Memory.read_store_of_ne (ha : 0 ≤ a) (h : b ≠ a) : (m.store a v).read b = m.read b := by
  by_cases hb : m.InBounds b
  · rw [Memory.read_of_inBounds _ _ hb, Memory.read_of_inBounds _ _ ((Memory.inBounds_store m a b v).2 hb)]
    have hne : a.toNat ≠ b.toNat := by obtain ⟨hb0, -⟩ := hb; omega
    simp [Memory.store, List.getD_eq_getElem?_getD, List.getElem?_set_ne hne]
  · rw [Memory.read_of_not_inBounds _ _ hb,
      Memory.read_of_not_inBounds _ _ (fun h' => hb ((Memory.inBounds_store m a b v).1 h'))]

/-- The one write of memory keeps its form. -/
theorem Memory.wf_store (h : Memory.wf p m) (hv : p.width.Representable v) : Memory.wf p (m.store a v) := by
  refine ⟨by simpa using h.1, fun x hx => ?_⟩
  rcases List.mem_or_eq_of_mem_set hx with hx | rfl
  · exact h.2 x hx
  · exact hv

/-- `MemWrite` keeps the form. -/
theorem Memory.wf_write {m' : Memory} (h : Memory.wf p m) (hv : p.width.Representable v)
    (hw : m.write a v = .ok m') : Memory.wf p m' := by
  unfold Memory.write at hw
  split at hw
  · cases hw; exact Memory.wf_store m a v p h hv
  · cases hw

/-- The memory of an absent VM, and so of every VM after RESET, has the form. -/
theorem Memory.wf_nil : Memory.wf p [] := by simp [Memory.wf]

/-- A constructed VM's memory has the form its program image has. -/
theorem Memory.wf_construct {prog : List Int} (h : Memory.wf p prog) : Memory.wf p (Vm.construct prog).mem := h

theorem Memory.cells_length : (Memory.cells m).length = m.length := by simp [Memory.cells]

/-- Seen as address and word pairs, a memory lists its addresses strictly rising, each once: the form
in which equal memories are equal data. -/
theorem Memory.cells_strictly_rising : ((Memory.cells m).map Prod.fst).Pairwise (· < ·) := by
  simp only [Memory.cells, List.map_map, Function.comp_def]
  rw [List.zipIdx_map_snd]
  exact List.pairwise_lt_range'

/-! ## Operands -/

/-- A resolved value operand: the literal, or the word at an address of memory. -/
theorem operand_ok {md : Mode} {x : Int} (h : operand m md a = .ok x) :
    (md = .immediate ∧ x = a) ∨ (md = .position ∧ m.InBounds a ∧ x = m.getD a.toNat 0 ∧ x ∈ m) := by
  cases md with
  | position => exact .inr ⟨rfl, Memory.read_ok m a h⟩
  | immediate => cases h; exact .inl ⟨rfl, rfl⟩

/-- A value operand that faults is a position operand outside memory. -/
theorem operand_error {md : Mode} {e : VmErr} (h : operand m md a = .error e) :
    md = .position ∧ ¬ m.InBounds a ∧ e = .outOfBounds a := by
  cases md with
  | position => exact ⟨rfl, Memory.read_error m a h⟩
  | immediate => cases h

/-- A value operand resolves exactly when it is immediate or its address is in memory. -/
theorem operand_isOk (md : Mode) (h : md = .position → m.InBounds a) : ∃ x, operand m md a = .ok x := by
  cases md with
  | position => exact ⟨_, Memory.read_of_inBounds m a (h rfl)⟩
  | immediate => exact ⟨a, rfl⟩

/-- A resolved target is the parameter word, an address of memory. -/
theorem target_ok {t : Int} (h : target m a = .ok t) : t = a ∧ m.InBounds a := by
  unfold target at h
  split at h
  · next hb => cases h; exact ⟨rfl, hb⟩
  · cases h

theorem target_error {e : VmErr} (h : target m a = .error e) : ¬ m.InBounds a ∧ e = .outOfBounds a := by
  unfold target at h
  split at h
  · cases h
  · next hb => cases h; exact ⟨hb, rfl⟩

theorem target_of_inBounds (h : m.InBounds a) : target m a = .ok a := if_pos h

variable (m0 m1 : Mode) (p0 p1 p2 : Int)

/-- `V V T` resolves when all three parts do (rule R75). -/
theorem resolveVVT_ok {x : Int × Int × Int} :
    resolveVVT m m0 m1 p0 p1 p2 = .ok x ↔
      operand m m0 p0 = .ok x.1 ∧ operand m m1 p1 = .ok x.2.1 ∧ target m p2 = .ok x.2.2 := by
  obtain ⟨a, b, t⟩ := x
  unfold resolveVVT
  cases operand m m0 p0 <;> cases operand m m1 p1 <;> cases target m p2 <;> simp [Except.bind]

/-- A fault of `V V T` is that of the first part that fails (rule R75). -/
theorem resolveVVT_error {e : VmErr} :
    resolveVVT m m0 m1 p0 p1 p2 = .error e ↔
      operand m m0 p0 = .error e ∨
      (∃ a, operand m m0 p0 = .ok a ∧ operand m m1 p1 = .error e) ∨
      (∃ a b, operand m m0 p0 = .ok a ∧ operand m m1 p1 = .ok b ∧ target m p2 = .error e) := by
  unfold resolveVVT
  cases operand m m0 p0 <;> cases operand m m1 p1 <;> cases target m p2 <;> simp [Except.bind]

/-- `V J` resolves when both parts do (rule R75). -/
theorem resolveVJ_ok {x : Int × Int} :
    resolveVJ m m0 m1 p0 p1 = .ok x ↔ operand m m0 p0 = .ok x.1 ∧ operand m m1 p1 = .ok x.2 := by
  obtain ⟨a, b⟩ := x
  unfold resolveVJ
  cases operand m m0 p0 <;> cases operand m m1 p1 <;> simp [Except.bind]

theorem resolveVJ_error {e : VmErr} :
    resolveVJ m m0 m1 p0 p1 = .error e ↔
      operand m m0 p0 = .error e ∨ (∃ a, operand m m0 p0 = .ok a ∧ operand m m1 p1 = .error e) := by
  unfold resolveVJ
  cases operand m m0 p0 <;> cases operand m m1 p1 <;> simp [Except.bind]

/-! ## Conditions -/

variable (width : Width) (ip w r : Int)

theorem checkedResult_ok {x : Int} :
    checkedResult width ip w r = .ok x ↔ width.Representable r ∧ x = r := by
  unfold checkedResult
  split
  · next h => exact ⟨fun e => by cases e; exact ⟨h, rfl⟩, fun e => by rw [e.2]⟩
  · next h => simp [h]

theorem checkedResult_error {e : VmErr} :
    checkedResult width ip w r = .error e ↔ ¬ width.Representable r ∧ e = ⟨.overflow, ip, w⟩ := by
  unfold checkedResult
  split
  · next h => simp [h]
  · next h => simp [h, eq_comm]

/-- A comparison result is representable in either width. -/
theorem representable_truthWord (q : Prop) [Decidable q] : width.Representable (truthWord q) := by
  unfold truthWord
  split <;> cases width <;> decide

/-! ## Queues -/

/-- A queue that is not full takes one more value within its capacity. -/
theorem push_length_le {c : Nat} {q : List Int} (h : queueFull (some c) q = false) : (push q v).length ≤ c := by
  simp [queueFull] at h
  simp [push]
  omega

/-! ## The active VM -/

variable (s : State) (k : Nat)

/-- The active VM is `Running`. -/
theorem State.active_running {s : State} {k : Nat} (h : s.active = some k) : (s.vm k).state = .running := by
  unfold State.active at h
  split at h
  · split at h
    · next hr => cases h; exact hr
    · cases h
  · split at h
    · next hr => cases h; exact hr.2
    · cases h
  all_goals cases h

/-- The active VM is one of the block's. -/
theorem State.active_lt {s : State} {k : Nat} (h : s.active = some k) : k < s.vms.length := by
  by_contra hk
  have := State.active_running h
  rw [State.vm_of_length_le s k (by omega)] at this
  cases this

/-- A VM that is still `Running` is put back with no answer. -/
theorem State.commitVm_of_running {vm : Vm} (h : vm.state = .running) : s.commitVm k vm = s.setVm k vm := by
  simp [State.commitVm, h]

/-- The active VM, put back as it was but for fields other than its lifecycle state, is still `Running`:
no answer is given. -/
theorem State.commitVm_of_active {s : State} {k : Nat} (h : s.active = some k) {vm : Vm}
    (hv : vm.state = (s.vm k).state) : s.commitVm k vm = s.setVm k vm :=
  State.commitVm_of_running s k (by rw [hv]; exact State.active_running h)

/-- In a network run no answer is given. -/
theorem State.commitVm_of_turnRun {vm : Vm} (h : s.netState = .turnRun) : s.commitVm k vm = s.setVm k vm := by
  simp [State.commitVm, h]

/-- Putting a VM back replaces it, and at most adds the answer of the RUN that has returned. -/
theorem State.commitVm_cases (vm : Vm) :
    s.commitVm k vm = s.setVm k vm ∨
    (vm.state ≠ .running ∧ s.commitVm k vm = (s.setVm k vm).answer (.ran vm.state)) := by
  unfold State.commitVm
  split
  · exact .inl rfl
  · next h => exact .inr ⟨fun h' => h (.inr h'), rfl⟩

theorem State.commitVm_vm (vm : Vm) (i : Nat) : (s.commitVm k vm).vm i = (s.setVm k vm).vm i := by
  rcases State.commitVm_cases s k vm with h | ⟨_, h⟩ <;> simp [h]

/-- An effect executed on the active VM: its result is settled and put back. -/
theorem State.onActive_of_active {s : State} {k : Nat} (h : s.active = some k)
    (f : Params → Vm → Except VmErr Vm) :
    s.onActive f = .next (s.commitVm k ((s.vm k).settle (f s.params (s.vm k)))) := by
  simp [State.onActive, h]

/-- An effect executed answers a next state only through the active VM. -/
theorem State.onActive_next {s t : State} {f : Params → Vm → Except VmErr Vm} (h : s.onActive f = .next t) :
    ∃ k, s.active = some k ∧ t = s.commitVm k ((s.vm k).settle (f s.params (s.vm k))) := by
  unfold State.onActive at h
  split at h
  · cases h
  · next k hk => cases h; exact ⟨k, hk, rfl⟩

end Sys2Proof.Machine
end

