-- ==== Sys2Proof/Laws/Exec.lean ====
section
/-! SUPPORT. What executing an instruction can do, said once: `exec` is an effect on the active VM, and
an effect either faults as rule R128 says or makes the changes listed here. -/

namespace Sys2Proof.Machine

/-- The effect of each instruction on a VM. -/
def effectOf : Instr → Params → Vm → Except VmErr Vm
  | .add m0 m1 m2 p0 p1 p2 => addEffect m0 m1 m2 p0 p1 p2
  | .mul m0 m1 m2 p0 p1 p2 => mulEffect m0 m1 m2 p0 p1 p2
  | .inp _ p0 => fun _ => inEffect p0
  | .out m0 p0 => outEffect m0 p0
  | .jt m0 m1 p0 p1 => fun _ => jtEffect m0 m1 p0 p1
  | .jf m0 m1 p0 p1 => fun _ => jfEffect m0 m1 p0 p1
  | .lt m0 m1 _ p0 p1 p2 => fun _ => ltEffect m0 m1 p0 p1 p2
  | .eq m0 m1 _ p0 p1 p2 => fun _ => eqEffect m0 m1 p0 p1 p2
  | .halt => fun _ => haltEffect

/-- Every instruction is its effect, executed on the active VM. -/
theorem exec_eq_onActive (i : Instr) (s : State) : exec i s = s.onActive (effectOf i) := by
  cases i <;> rfl

variable (p : Params) (vm : Vm) (m0 m1 m2 : Mode) (p0 p1 p2 : Int)

/-! ## Each instruction's effect, in the shape it shares -/

theorem effectOf_add : effectOf (.add m0 m1 m2 p0 p1 p2) p vm = storeResultEffect m0 m1 p0 p1 p2
    (fun a b => checkedResult p.width vm.ip (encodeWord (.add m0 m1 m2 p0 p1 p2)) (a + b)) vm := rfl

theorem effectOf_mul : effectOf (.mul m0 m1 m2 p0 p1 p2) p vm = storeResultEffect m0 m1 p0 p1 p2
    (fun a b => checkedResult p.width vm.ip (encodeWord (.mul m0 m1 m2 p0 p1 p2)) (a * b)) vm := rfl

theorem effectOf_lt : effectOf (.lt m0 m1 m2 p0 p1 p2) p vm =
    storeResultEffect m0 m1 p0 p1 p2 (fun a b => .ok (truthWord (a < b))) vm := rfl

theorem effectOf_eq : effectOf (.eq m0 m1 m2 p0 p1 p2) p vm =
    storeResultEffect m0 m1 p0 p1 p2 (fun a b => .ok (truthWord (a = b))) vm := rfl

theorem effectOf_inp : effectOf (.inp m0 p0) p vm = inEffect p0 vm := rfl

theorem effectOf_out : effectOf (.out m0 p0) p vm = outEffect m0 p0 p vm := rfl

theorem effectOf_jt : effectOf (.jt m0 m1 p0 p1) p vm =
    jumpEffect m0 m1 p0 p1 (fun c => decide (c ≠ 0)) vm := rfl

theorem effectOf_jf : effectOf (.jf m0 m1 p0 p1) p vm =
    jumpEffect m0 m1 p0 p1 (fun c => decide (c = 0)) vm := rfl

theorem effectOf_halt : effectOf .halt p vm = .ok { vm with state := .halted } := rfl

/-- An instruction executed where `VM[k]` is active: its effect is settled and the VM put back. -/
theorem exec_of_active {s : State} {k : Nat} (h : s.active = some k) (i : Instr) :
    exec i s = .next (s.commitVm k ((s.vm k).settle (effectOf i s.params (s.vm k)))) := by
  rw [exec_eq_onActive, State.onActive_of_active h]

/-! ## What each shape does -/

/-- The shape of ADD, MUL, LT and EQ: resolved, computed, stored and advanced. -/
theorem storeResultEffect_ok {f : Int → Int → Except VmErr Int} {vm' : Vm} :
    storeResultEffect m0 m1 p0 p1 p2 f vm = .ok vm' ↔
      ∃ a b t r, operand vm.mem m0 p0 = .ok a ∧ operand vm.mem m1 p1 = .ok b ∧
        target vm.mem p2 = .ok t ∧ f a b = .ok r ∧ vm' = vm.storeAndAdvance t r 4 := by
  unfold storeResultEffect
  constructor
  · intro h
    cases hr : resolveVVT vm.mem m0 m1 p0 p1 p2 with
    | error e => rw [hr] at h; cases h
    | ok x =>
      rw [hr] at h
      obtain ⟨h0, h1, h2⟩ := (resolveVVT_ok vm.mem m0 m1 p0 p1 p2).1 hr
      simp only [Except.bind] at h
      cases hf : f x.1 x.2.1 with
      | error e => rw [hf] at h; cases h
      | ok r => rw [hf] at h; cases h; exact ⟨_, _, _, r, h0, h1, h2, hf, rfl⟩
  · rintro ⟨a, b, t, r, h0, h1, h2, hf, rfl⟩
    have hr : resolveVVT vm.mem m0 m1 p0 p1 p2 = .ok (a, b, t) :=
      (resolveVVT_ok vm.mem m0 m1 p0 p1 p2).2 ⟨h0, h1, h2⟩
    simp [hr, Except.bind, hf]

/-- A fault of that shape is one of its operands', or one of the computation. -/
theorem storeResultEffect_error {f : Int → Int → Except VmErr Int} {e : VmErr} :
    storeResultEffect m0 m1 p0 p1 p2 f vm = .error e ↔
      resolveVVT vm.mem m0 m1 p0 p1 p2 = .error e ∨
      ∃ a b t, operand vm.mem m0 p0 = .ok a ∧ operand vm.mem m1 p1 = .ok b ∧
        target vm.mem p2 = .ok t ∧ f a b = .error e := by
  unfold storeResultEffect
  cases hr : resolveVVT vm.mem m0 m1 p0 p1 p2 with
  | error e' =>
    simp only [Except.bind, Except.error.injEq]
    refine ⟨.inl, ?_⟩
    rintro (h | ⟨a, b, t, h0, h1, h2, -⟩)
    · exact h
    · rw [(resolveVVT_ok vm.mem m0 m1 p0 p1 p2 (x := (a, b, t))).2 ⟨h0, h1, h2⟩] at hr; cases hr
  | ok x =>
    obtain ⟨h0, h1, h2⟩ := (resolveVVT_ok vm.mem m0 m1 p0 p1 p2).1 hr
    simp only [Except.bind]
    constructor
    · intro h
      cases hf : f x.1 x.2.1 with
      | ok r => rw [hf] at h; cases h
      | error e' => rw [hf] at h; cases h; exact .inr ⟨_, _, _, h0, h1, h2, hf⟩
    · rintro (h | ⟨a, b, t, h0', h1', -, hf⟩)
      · cases h
      · rw [h0] at h0'; rw [h1] at h1'
        cases h0'; cases h1'
        rw [hf]

/-- The shape of JT and JF: both operands resolved, then `ip` written. -/
theorem jumpEffect_ok {taken : Int → Bool} {vm' : Vm} :
    jumpEffect m0 m1 p0 p1 taken vm = .ok vm' ↔
      ∃ c t, operand vm.mem m0 p0 = .ok c ∧ operand vm.mem m1 p1 = .ok t ∧
        vm' = { vm with ip := if taken c then t else vm.ip + 3 } := by
  unfold jumpEffect
  constructor
  · intro h
    cases hr : resolveVJ vm.mem m0 m1 p0 p1 with
    | error e => rw [hr] at h; cases h
    | ok x =>
      rw [hr] at h
      cases h
      obtain ⟨h0, h1⟩ := (resolveVJ_ok vm.mem m0 m1 p0 p1).1 hr
      exact ⟨_, _, h0, h1, rfl⟩
  · rintro ⟨c, t, h0, h1, rfl⟩
    rw [(resolveVJ_ok vm.mem m0 m1 p0 p1 (x := (c, t))).2 ⟨h0, h1⟩]
    rfl

theorem jumpEffect_error {taken : Int → Bool} {e : VmErr} :
    jumpEffect m0 m1 p0 p1 taken vm = .error e ↔ resolveVJ vm.mem m0 m1 p0 p1 = .error e := by
  unfold jumpEffect
  cases resolveVJ vm.mem m0 m1 p0 p1 <;> simp [Except.bind]

/-! ## IN and OUT -/

/-- What IN can do when it does not fault: wait, or take the oldest value. -/
theorem inEffect_ok {vm' : Vm} (h : inEffect p0 vm = .ok vm') :
    vm.mem.InBounds p0 ∧
    ((vm.inQ = [] ∧ vm' = { vm with state := .awaitingInput }) ∨
      ∃ v rest, vm.inQ = v :: rest ∧ vm' = { vm.storeAndAdvance p0 v 2 with inQ := rest }) := by
  unfold inEffect at h
  cases ht : target vm.mem p0 with
  | error e => rw [ht] at h; cases h
  | ok t =>
    obtain ⟨rfl, hb⟩ := target_ok vm.mem p0 ht
    rw [ht] at h
    simp only [Except.bind] at h
    split at h
    · next hq => cases h; exact ⟨hb, .inl ⟨hq, rfl⟩⟩
    · next v rest hq => cases h; exact ⟨hb, .inr ⟨v, rest, hq, rfl⟩⟩

theorem inEffect_error {e : VmErr} (h : inEffect p0 vm = .error e) :
    ¬ vm.mem.InBounds p0 ∧ e = .outOfBounds p0 := by
  unfold inEffect at h
  cases ht : target vm.mem p0 with
  | error e' => rw [ht] at h; cases h; exact target_error vm.mem p0 ht
  | ok t =>
    rw [ht] at h
    simp only [Except.bind] at h
    split at h <;> cases h

/-- What OUT can do when it does not fault. -/
theorem outEffect_ok {vm' : Vm} (h : outEffect m0 p0 p vm = .ok vm') :
    ∃ v, operand vm.mem m0 p0 = .ok v ∧ queueFull p.qCap vm.outQ = false ∧
      vm' = { vm with
        outQ := push vm.outQ v
        ip := vm.ip + 2
        state := if p.yieldOnOutput then .yielded else vm.state } := by
  unfold outEffect at h
  cases ho : operand vm.mem m0 p0 with
  | error e => rw [ho] at h; cases h
  | ok v =>
    rw [ho] at h
    simp only [Except.bind] at h
    split at h
    · cases h
    · next hq => cases h; exact ⟨v, rfl, by simpa using hq, rfl⟩

theorem outEffect_error {e : VmErr} (h : outEffect m0 p0 p vm = .error e) :
    operand vm.mem m0 p0 = .error e ∨
    (queueFull p.qCap vm.outQ = true ∧ e = ⟨.queueOverflow, vm.ip, encodeWord (.out m0 p0)⟩) := by
  unfold outEffect at h
  cases ho : operand vm.mem m0 p0 with
  | error e' => rw [ho] at h; cases h; exact .inl rfl
  | ok v =>
    rw [ho] at h
    simp only [Except.bind] at h
    split at h
    · next hq => cases h; exact .inr ⟨hq, rfl⟩
    · cases h

/-! ## Fetch and step -/

/-- What a fetch that answers an instruction has read. -/
theorem Vm.fetch_ok {vm : Vm} {i : Instr} (h : vm.fetch = .ok i) :
    vm.mem.InBounds vm.ip ∧ ∃ rest, decode (vm.mem.drop vm.ip.toNat) = .ok (i, rest) := by
  unfold Vm.fetch at h
  split at h
  · next hb =>
    split at h
    · next j rest hd => cases h; exact ⟨hb, rest, hd⟩
    · cases h
  · cases h

/-- A fetch that faults: `ip` outside memory, or the decoder's rejection. -/
theorem Vm.fetch_error {vm : Vm} {e : VmErr} (h : vm.fetch = .error e) :
    (¬ vm.mem.InBounds vm.ip ∧ e = .outOfBounds vm.ip) ∨
    (vm.mem.InBounds vm.ip ∧ ∃ r, decode (vm.mem.drop vm.ip.toNat) = .error r ∧ e = rejectErr vm.ip r) := by
  unfold Vm.fetch at h
  split at h
  · next hb =>
    split at h
    · cases h
    · next r hd => cases h; exact .inr ⟨hb, r, hd, rfl⟩
  · next hb => cases h; exact .inl ⟨hb, rfl⟩

/-- The next VM of one step of a VM: the settled effect of the instruction fetched, or the fault of the
fetch. -/
def Vm.next (p : Params) (vm : Vm) : Vm :=
  match vm.fetch with
  | .ok i => vm.settle (effectOf i p vm)
  | .error e => vm.raise e

/-- The step of the active VM, in one form. -/
theorem State.vmStep_of_active {s : State} {k : Nat} (h : s.active = some k) :
    s.vmStep k = .next (s.commitVm k ((s.vm k).next s.params)) := by
  unfold State.vmStep Vm.next
  cases (s.vm k).fetch with
  | error e => rfl
  | ok i => simp only [exec_eq_onActive, State.onActive_of_active h]

/-- The block step, in one form: a step of the active VM, or an action of the orchestrator. -/
theorem State.blockStep_cases (s : State) :
    (∃ k, s.active = some k ∧ s.blockStep = .next (s.commitVm k ((s.vm k).next s.params))) ∨
    (s.active = none ∧ s.blockStep = .next s.orchestrate) := by
  unfold State.blockStep
  cases h : s.active with
  | none => exact .inr ⟨rfl, rfl⟩
  | some k => exact .inl ⟨k, rfl, State.vmStep_of_active h⟩

end Sys2Proof.Machine
end

