-- ==== Sys2Proof/Laws/PerInstr.lean ====
section
/-! SUPPORT. Statements made of every instruction as syntax, one lemma per constructor. -/

namespace Sys2Proof.Laws

/-! ## The instruction word of every instruction is a valid word (rules R55 and R59) -/

/-- The encoder writes only words the VM accepts. -/
def ValidEncoding.Statement (i : Instr) : Prop := validWord (encodeWord i) = true

theorem ValidEncoding.add (m0 m1 m2 : Mode) (p0 p1 p2 : Int) :
    ValidEncoding.Statement (.add m0 m1 m2 p0 p1 p2) := by cases m0 <;> cases m1 <;> cases m2 <;> rfl

theorem ValidEncoding.mul (m0 m1 m2 : Mode) (p0 p1 p2 : Int) :
    ValidEncoding.Statement (.mul m0 m1 m2 p0 p1 p2) := by cases m0 <;> cases m1 <;> cases m2 <;> rfl

theorem ValidEncoding.inp (m0 : Mode) (p0 : Int) : ValidEncoding.Statement (.inp m0 p0) := by
  cases m0 <;> rfl

theorem ValidEncoding.out (m0 : Mode) (p0 : Int) : ValidEncoding.Statement (.out m0 p0) := by
  cases m0 <;> rfl

theorem ValidEncoding.jt (m0 m1 : Mode) (p0 p1 : Int) : ValidEncoding.Statement (.jt m0 m1 p0 p1) := by
  cases m0 <;> cases m1 <;> rfl

theorem ValidEncoding.jf (m0 m1 : Mode) (p0 p1 : Int) : ValidEncoding.Statement (.jf m0 m1 p0 p1) := by
  cases m0 <;> cases m1 <;> rfl

theorem ValidEncoding.lt (m0 m1 m2 : Mode) (p0 p1 p2 : Int) :
    ValidEncoding.Statement (.lt m0 m1 m2 p0 p1 p2) := by cases m0 <;> cases m1 <;> cases m2 <;> rfl

theorem ValidEncoding.eq (m0 m1 m2 : Mode) (p0 p1 p2 : Int) :
    ValidEncoding.Statement (.eq m0 m1 m2 p0 p1 p2) := by cases m0 <;> cases m1 <;> cases m2 <;> rfl

theorem ValidEncoding.halt : ValidEncoding.Statement .halt := rfl

end Sys2Proof.Laws
end

