-- ==== Sys2Proof/Laws/Step.lean ====
section
/-! SUPPORT. What a step is, case by case, and what the updates of the orchestrator and of START do: one
lemma each, cited instead of unfolding `step`. -/

namespace Sys2Proof.Machine

variable (s : State) (k i : Nat) (v : Vm)

/-! ## The three kinds of step -/

/-- With the host silent a step is a block step. -/
theorem step_of_hostSilent {s : State} (h : s.HostSilent) : step s = s.blockStep := by
  unfold step; rw [show s.hostMoves = [] from h]

/-- With the host silent and a VM active, a step is that VM's. -/
theorem step_of_active {s : State} {k : Nat} (hs : s.HostSilent) (h : s.active = some k) :
    step s = .next (s.commitVm k ((s.vm k).next s.params)) := by
  rw [step_of_hostSilent hs]; unfold State.blockStep; rw [h]; exact State.vmStep_of_active h

/-- With the host silent and no VM active, a step is the orchestrator's. -/
theorem step_of_no_active {s : State} (hs : s.HostSilent) (h : s.active = none) :
    step s = .next s.orchestrate := by
  rw [step_of_hostSilent hs]; unfold State.blockStep; rw [h]

/-- A transaction's step. -/
theorem step_of_transaction {s : State} {t : Txn} {rest : List HostMove}
    (h : s.hostMoves = .transaction t :: rest) : step s = .next ({ s with hostMoves := rest }.transact t) := by
  unfold step; rw [h]

/-- A transaction whose precondition holds is performed. -/
theorem transact_of_allowed {s : State} {t : Txn} (h : s.refusal t = none) : s.transact t = s.perform t := by
  unfold State.transact; rw [h]

/-- `k + 1` steps are a step and `k` more. -/
theorem run_succ {s t : State} (h : step s = .next t) :
    Host.Core.run Sys2Proof.core (k + 1) s = Host.Core.run Sys2Proof.core k t := by
  have hc : Sys2Proof.core.step s = .next t := h
  show Host.Core.run _ _ _ = _
  simp only [Host.Core.run, hc]

/-! ## Which VM is active -/

/-- The active VM is `VM[turn]` of a network run, or `VM[0]` in standalone mode. -/
theorem State.active_cases {s : State} {k : Nat} (h : s.active = some k) :
    (s.netState = .turnRun ∧ k = s.turn) ∨ (s.netState = .idle ∧ s.blkMode = .standalone ∧ k = 0) := by
  unfold State.active at h
  cases hn : s.netState <;> rw [hn] at h <;> simp at h ⊢ <;> simp_all

/-- A block that is not busy is in no network run and runs no standalone VM. -/
theorem State.of_not_busy {s : State} (h : s.busy = false) :
    s.netBusy = false ∧ ¬ (s.blkMode = .standalone ∧ (s.vm 0).state = .running) := by
  unfold State.busy at h
  simp only [Bool.or_eq_false_iff, Bool.and_eq_false_iff, decide_eq_false_iff_not] at h
  exact ⟨h.1, fun ⟨a, b⟩ => h.2.elim (· a) (· b)⟩

/-- A block that is not busy has no active VM. -/
theorem State.active_of_not_busy {s : State} (h : s.busy = false) : s.active = none := by
  obtain ⟨hb, hr⟩ := State.of_not_busy h
  cases ha : s.active with
  | none => rfl
  | some k =>
    rcases State.active_cases ha with ⟨hn, _⟩ | ⟨_, hm, rfl⟩
    · simp [State.netBusy, hn] at hb
    · exact absurd ⟨hm, State.active_running ha⟩ hr

/-- In `DONE` and `ERROR` no VM is active (rule R103). -/
theorem State.active_of_ended {s : State} (h : s.netState = .done ∨ s.netState = .error) :
    s.active = none := by
  unfold State.active; rcases h with h | h <;> rw [h]

/-! ## Preconditions -/

/-- When PUSH, RUN and POP pass their common precondition. -/
theorem State.standaloneRefusal_eq_none {s : State} {t : Txn} :
    s.standaloneRefusal t = none ↔
      s.blkMode = .standalone ∧ (s.vm 0).state ≠ .running ∧ (s.usesVm t = true → s.netState = .idle) := by
  unfold State.standaloneRefusal
  by_cases h1 : s.blkMode = .standalone <;> by_cases h2 : s.netState = .idle <;>
    by_cases h3 : (s.vm 0).state = .running <;> simp [h1, h2, h3]

@[simp] theorem State.usesVm_push {s : State} {v : Int} : s.usesVm (.push v) = true := rfl

@[simp] theorem State.usesVm_pop {s : State} : s.usesVm .pop = true ↔ (s.vm 0).outQ ≠ [] := by
  simp [State.usesVm]

/-- RUN executes `VM[0]` in the three lifecycle states from which `run()` goes on. -/
@[simp] theorem State.usesVm_run {s : State} (h : (s.vm 0).state ≠ .running) :
    s.usesVm .run = true ↔ (s.vm 0).state ∈ [VmState.ready, .awaitingInput, .yielded] := by
  unfold State.usesVm Vm.call
  cases hs : (s.vm 0).state <;> simp_all

theorem State.refusal_run : s.refusal .run =
    (s.standaloneRefusal .run).or (if (s.vm 0).state = .absent then some .notConstructed else none) := rfl

theorem State.refusal_pop : s.refusal .pop = s.standaloneRefusal .pop := rfl

/-- PUSH of a representable value. -/
theorem State.refusal_push {s : State} {v : Int} (h : s.params.width.Representable v) : s.refusal (.push v) =
    (s.standaloneRefusal (.push v)).or (if queueFull s.params.qCap (s.vm 0).inQ then some .queueFull else none) := by
  have ht : (Txn.push v).wellTyped s.params = true := by simpa [Txn.wellTyped] using h
  unfold State.refusal
  rw [if_neg (by simp [ht])]

/-! ## A VM put back -/

/-- Putting `VM[k]` back leaves the block and every other VM as they were. -/
theorem State.onlyVm_commitVm : s.OnlyVm (s.commitVm k v) k := by
  refine ⟨?_, fun j hj => by rw [State.commitVm_vm, State.vm_setVm_of_ne _ _ _ _ hj], fun h => ?_⟩
  · rcases State.commitVm_cases s k v with h | ⟨_, h⟩ <;> rw [h] <;>
      exact ⟨rfl, rfl, rfl, rfl, rfl, rfl, rfl, rfl, rfl, rfl, rfl, rfl, rfl, by simp⟩
  · rcases State.commitVm_cases s k v with h' | ⟨hn, h'⟩
    · rw [h']; rfl
    · rw [h', State.answer_vm] at h
      by_cases hk : k < s.vms.length
      · rw [State.vm_setVm_self _ _ _ hk] at h; exact absurd h hn
      · rw [State.vm_setVm, if_neg (by simp [hk]), State.vm_of_length_le _ _ (by omega)] at h; cases h

/-- The active VM, put back, is the VM put back. -/
theorem State.commitVm_vm_self {s : State} {k : Nat} (h : s.active = some k) (v : Vm) :
    (s.commitVm k v).vm k = v := by
  rw [State.commitVm_vm, State.vm_setVm_self _ _ _ (State.active_lt h)]

/-- An instruction's next state: nothing outside the active VM, and there its settled effect. -/
theorem exec_next {s t : State} {k : Nat} {i : Instr} (ha : s.active = some k) (h : exec i s = .next t) :
    s.OnlyVm t k ∧ t.vm k = (s.vm k).settle (effectOf i s.params (s.vm k)) := by
  rw [exec_of_active ha] at h
  cases h
  exact ⟨State.onlyVm_commitVm _ _ _, State.commitVm_vm_self ha _⟩

/-- A `run()` call on a `Halted` or `Faulted` VM changes nothing (rule R81). -/
theorem Vm.call_of_terminal {v : Vm} (h : v.state.Terminal) : v.call = v := by
  unfold Vm.call; rcases h with h | h <;> simp [h]

/-- What a `run()` call makes of the lifecycle state is a legal move (rule R27). -/
theorem Vm.call_mayBecome : v.call.state = v.state ∨ v.state.mayBecome v.call.state = true := by
  unfold Vm.call; cases h : v.state <;> simp [h, VmState.mayBecome]

/-! ## The orchestrator's updates -/

theorem State.nextTurn_of_lt {s : State} (h : s.turn + 1 < s.params.n) :
    s.nextTurn = { s with turn := s.turn + 1, netState := .turnSend } := if_pos h

theorem State.nextTurn_of_not_lt {s : State} (h : ¬ s.turn + 1 < s.params.n) :
    s.nextTurn = { s with netState := .passEnd } := if_neg h

/-- The next turn writes `turn` and `net_state` only. -/
theorem State.nextTurn_eq :
    s.nextTurn = { s with turn := s.nextTurn.turn, netState := s.nextTurn.netState } := by
  unfold State.nextTurn; split <;> rfl

@[simp] theorem State.nextTurn_vm : s.nextTurn.vm i = s.vm i := by rw [State.nextTurn_eq]; rfl
@[simp] theorem State.nextTurn_params : s.nextTurn.params = s.params := by rw [State.nextTurn_eq]
@[simp] theorem State.nextTurn_prog : s.nextTurn.prog = s.prog := by rw [State.nextTurn_eq]
@[simp] theorem State.nextTurn_netErr : s.nextTurn.netErr = s.netErr := by rw [State.nextTurn_eq]
@[simp] theorem State.nextTurn_hostMoves : s.nextTurn.hostMoves = s.hostMoves := by rw [State.nextTurn_eq]

/-! ## The VMs that RESET and START leave -/

theorem getD_map_range {α : Type} (n i : Nat) (f : Nat → α) (d : α) :
    ((List.range n).map f).getD i d = if i < n then f i else d := by
  by_cases h : i < n <;> simp [List.getD_eq_getElem?_getD, h]

@[simp] theorem State.vm_resetWith (p : Params) : (State.resetWith p).vm i = Vm.absent := by
  unfold State.vm State.resetWith
  by_cases h : i < p.n <;> simp [List.getD_eq_getElem?_getD, h]

theorem State.vm_launch : s.launch.vm i =
    if i < s.params.n then { Vm.construct s.prog with inQ := push [] (s.phase.getD i 0) } else Vm.absent :=
  getD_map_range _ _ _ _

theorem State.vm_startStandalone : s.startStandalone.vm i =
    if i < s.params.n then (if i = 0 then Vm.construct s.prog else Vm.absent) else Vm.absent :=
  getD_map_range _ _ _ _

end Sys2Proof.Machine
end

