-- ==== Sys2Proof/Tests/Slice0.lean ====
section
/-! SUPPORT. The model's own tests.  Expected values come from the spec: the opcode map and formats of
`30_encoding.md`, and the vectors of `95_test_vectors.md`, named by their ids.  Each witness shows a
state and operands that meet the hypotheses of one statement, or of one of its clauses. -/

namespace Sys2Proof.Tests

open Sys2Proof.Machine

/-! ## Small states -/

/-- A small block: two VMs, memories of at most 16 words, queues of at most two values. -/
def small : Params := ⟨.w64, 2, 16, some 2, false⟩

/-- A `Running` VM. -/
def vmAt (mem : List Int) (ip : Int) (inQ outQ : List Int) : Vm := ⟨mem, ip, .running, ⟨.none, 0, 0⟩, inQ, outQ⟩

/-- A `Running` VM with a program at address 0 and empty queues. -/
def vmOf (mem : List Int) : Vm := vmAt mem 0 [] []

/-- A standalone block with the parameters `p` and the VM `v`. -/
def blockWith (p : Params) (v : Vm) : State :=
  { State.resetWith p with blkMode := .standalone, vms := [v, Vm.absent] }

/-- A standalone block with the VM `v`. -/
def block (v : Vm) : State := blockWith small v

/-- A network run in the state `ns` at the turn `turn`. -/
def net (ns : NetState) (turn : Nat) (vms : List Vm) : State :=
  { State.resetWith small with blkMode := .network, netState := ns, turn := turn, vms := vms }

/-- `s` with one transaction to come. -/
def sending (s : State) (t : Txn) : State := { s with hostMoves := [.transaction t] }

/-- The next state, when there is one. -/
def after (o : Host.Outcome State Fault Refusal) : Option State :=
  match o with
  | .next t => some t
  | .fault _ | .refused _ => none

/-- `VM[0]` of the next state. -/
def vm0 (s : State) : Option Vm := (after (step s)).map fun t => t.vm 0

/-- `2^63 - 1` and `-2^63`. -/
def hi : Int := 9223372036854775807
def lo : Int := -9223372036854775808

/-! ## Decoding: words written out from the formats of rule R55 -/

theorem test_decode_add : decode [1101, 100, -1, 4, 0] = .ok (.add .immediate .immediate .position 100 (-1) 4, [0]) := by rfl
theorem test_decode_add_target_mode : decode [11101, 2, 3, 5] = .ok (.add .immediate .immediate .immediate 2 3 5, []) := by rfl
theorem test_decode_mul : decode [1002, 4, 3, 4] = .ok (.mul .position .immediate .position 4 3 4, []) := by rfl
theorem test_decode_in : decode [103, 2, 0] = .ok (.inp .immediate 2, [0]) := by rfl
theorem test_decode_out : decode [4, 5] = .ok (.out .position 5, []) := by rfl
theorem test_decode_jt : decode [105, 1, 4] = .ok (.jt .immediate .position 1 4, []) := by rfl
theorem test_decode_jf : decode [1006, 20, 16] = .ok (.jf .position .immediate 20 16, []) := by rfl
theorem test_decode_lt : decode [107, 17, 18, 19] = .ok (.lt .immediate .position .position 17 18 19, []) := by rfl
theorem test_decode_eq : decode [10008, 17, 18, 19] = .ok (.eq .position .position .immediate 17 18 19, []) := by rfl
theorem test_decode_halt : decode [99, 7] = .ok (.halt, [7]) := by rfl

/-! Rejections by name (table D). -/

theorem test_reject_opcode : decode [98] = .error (.illegalWord 98) := by rfl
theorem test_reject_halt_digit : decode [199] = .error (.illegalWord 199) := by rfl
theorem test_reject_target_mode_2 : decode [20001, 0, 0, 0] = .error (.illegalWord 20001) := by rfl
theorem test_reject_digit_above : decode [1003, 0] = .error (.illegalWord 1003) := by rfl
theorem test_reject_digit_5 : decode [110101, 0, 0, 0] = .error (.illegalWord 110101) := by rfl
theorem test_reject_negative : decode [-1002, 0, 0, 0] = .error (.illegalWord (-1002)) := by rfl
theorem test_reject_no_word : decode [] = .error .noWord := by rfl
theorem test_reject_parameter : decode [1101, 1] = .error (.missingParameter 1) := by rfl

/-- Table D: the fields of a negative word follow the truncating division of rule R14. -/
theorem test_fields_negative : decodeFields (-1002) = ⟨-2, 0, -1, 0⟩ := by decide

/-- Rule R62: of the words 0 to 199, the 17 of the map, in ascending order. -/
theorem test_valid_words_below_200 :
    (List.range 200).filter (fun w => validWord (w : Int)) =
      [1, 2, 3, 4, 5, 6, 7, 8, 99, 101, 102, 103, 104, 105, 106, 107, 108] := by decide

/-- Rule R55: the encoder writes the word of the format. -/
theorem test_encode_jt : encode (.jt .position .immediate 19 14) = [1005, 19, 14] := by decide

/-- The bits of an opcode-table row: the first word lowest, and operand words of zeros. -/
theorem test_decode_table_word : decodeTableWord 64 1005 = some (.jt .position .immediate 0 0) := by decide

/-- Rule R68: `JMP #t` is the words 1105, 1, t. -/
theorem test_jmp : encode (.jmp 2) = [1105, 1, 2] := by decide

/-- Rule R67, program P2: `JT [19], #14`. -/
theorem test_disassemble : Instr.disassemble (.jt .position .immediate 19 14) = ⟨.jt, [.bracket 19, .hash 14]⟩ := by
  decide

/-! ## Well-formedness: one ill-formed term for each parameter checked -/

theorem test_illformed_add_p0 : Instr.wellFormed .w64 (.add .position .position .position (hi + 1) 0 0) = false := by decide
theorem test_illformed_mul_p1 : Instr.wellFormed .w64 (.mul .position .position .position 0 (lo - 1) 0) = false := by decide
theorem test_illformed_lt_p2 : Instr.wellFormed .w64 (.lt .position .position .position 0 0 (hi + 1)) = false := by decide
theorem test_illformed_eq_w32 : Instr.wellFormed .w32 (.eq .position .position .position 0 0 2147483648) = false := by decide
theorem test_illformed_in : Instr.wellFormed .w32 (.inp .position (-2147483649)) = false := by decide
theorem test_illformed_out : Instr.wellFormed .w64 (.out .immediate (lo - 1)) = false := by decide
theorem test_illformed_jt : Instr.wellFormed .w64 (.jt .immediate .immediate 1 (hi + 1)) = false := by decide
theorem test_illformed_jf : Instr.wellFormed .w64 (.jf .immediate .immediate (hi + 1) 0) = false := by decide
theorem test_wellformed_extremes : Instr.wellFormed .w64 (.add .immediate .immediate .position hi lo 0) = true := by decide

/-! ## One step of each instruction -/

/-- A1: the target is also an operand's address, read first. -/
theorem test_add_own_operand : vm0 (block (vmOf [1, 0, 0, 0, 99])) = some (vmAt [2, 0, 0, 0, 99] 4 [] []) := by decide

/-- A4: a sum that overflows stores nothing. -/
theorem test_add_overflow : vm0 (block (vmOf [1101, hi, 1, 7, 99, 0, 0, 0])) =
    some ⟨[1101, hi, 1, 7, 99, 0, 0, 0], 0, .faulted, ⟨.overflow, 0, 1101⟩, [], []⟩ := by decide

/-- A10: the sign of a product. -/
theorem test_mul_sign : (vm0 (block (vmOf [1102, -3, 4, 7, 99, 0, 0, 0]))).map (fun v => v.mem[7]?) = some (some (-12)) := by decide

/-- A7: `LO * -1` overflows. -/
theorem test_mul_overflow : (vm0 (block (vmOf [1102, lo, -1, 7, 99, 0, 0, 0]))).map Vm.err = some ⟨.overflow, 0, 1102⟩ := by decide

/-- A16: a signed comparison of the extremes. -/
theorem test_lt_extremes : (vm0 (block (vmOf [1107, lo, hi, 5, 99, 0]))).map (fun v => v.mem[5]?) = some (some 1) := by decide

/-- A13: equal is not less. -/
theorem test_lt_equal : (vm0 (block (vmOf [1107, 3, 3, 5, 99, 9]))).map (fun v => v.mem[5]?) = some (some 0) := by decide

/-- A26: position mode. -/
theorem test_eq_position : (vm0 (block (vmOf [8, 5, 6, 7, 99, 3, 3, 0]))).map (fun v => v.mem[7]?) = some (some 1) := by decide

/-- A15: different signs are not equal. -/
theorem test_eq_sign : (vm0 (block (vmOf [1108, -1, 1, 5, 99, 9]))).map (fun v => v.mem[5]?) = some (some 0) := by decide

/-- I3: IN overwrites its own parameter. -/
theorem test_in_own_parameter : vm0 (block (vmAt [3, 1, 99] 0 [5, 6] [])) = some (vmAt [3, 5, 99] 2 [6] []) := by decide

/-- I4: the target is checked before the queue. -/
theorem test_in_target_first : (vm0 (block (vmOf [3, 9, 99]))).map Vm.err = some ⟨.outOfBounds, 9, 0⟩ := by decide

/-- O1: an immediate output, behind one already there. -/
theorem test_out_appends : vm0 (block (vmAt [104, -7, 99] 0 [] [1])) = some (vmAt [104, -7, 99] 2 [] [1, -7]) := by decide

/-- O5: the third output into a queue of two. -/
theorem test_out_overflow : vm0 (block (vmAt [104, 1, 104, 2, 104, 3, 99] 4 [] [1, 2])) =
    some ⟨[104, 1, 104, 2, 104, 3, 99], 4, .faulted, ⟨.queueOverflow, 4, 104⟩, [], [1, 2]⟩ := by decide

/-- J9: a position-mode jump target is dereferenced. -/
theorem test_jt_position_target : (vm0 (block (vmOf [105, 1, 4, 99, 3]))).map Vm.ip = some 3 := by decide

/-- J5: a negative condition is true. -/
theorem test_jt_negative : (vm0 (block (vmOf [1105, -1, 4, 99, 99]))).map Vm.ip = some 4 := by decide

/-- J3: JF not taken. -/
theorem test_jf_not_taken : (vm0 (block (vmOf [1106, 5, 4, 99, 99]))).map Vm.ip = some 3 := by decide

/-- J8: the target of a jump not taken is resolved all the same. -/
theorem test_jf_target_checked : (vm0 (block (vmOf [106, 5, 100, 99]))).map Vm.err = some ⟨.outOfBounds, 100, 0⟩ := by decide

/-- H1: HALT leaves `ip`. -/
theorem test_halt : vm0 (block (vmOf [99])) = some ⟨[99], 0, .halted, ⟨.none, 0, 0⟩, [], []⟩ := by decide

/-! ## The orchestrator and the host -/

/-- N11: a send into a full queue. -/
theorem test_send_overflow :
    (after (step { net .turnSend 0 [⟨[104, 5, 1105, 1, 0], 2, .yielded, ⟨.none, 0, 0⟩, [3, 0], []⟩, Vm.absent] with sigValid := true })).map
      (fun t => (t.netState, t.netErr)) = some (.error, ⟨.queueOverflow, 2, 0, 0⟩) := by decide

/-- N2: a VM that waits without output starves the network. -/
theorem test_collect_starved :
    (after (step (net .turnCollect 0 [⟨[], 4, .awaitingInput, ⟨.none, 0, 0⟩, [], []⟩, Vm.absent]))).map State.netErr =
      some ⟨.inputStarved, 4, 0, 0⟩ := by decide

/-- N10: a VM that halts without output leaves nothing to forward, and the signal as it was. -/
theorem test_collect_drain :
    (after (step { net .turnCollect 0 [⟨[99], 0, .halted, ⟨.none, 0, 0⟩, [], []⟩, Vm.absent] with signal := 6, sigValid := true })).map
      (fun t => (t.netState, t.turn, t.signal, t.sigValid)) = some (.turnSend, 1, 6, false) := by decide

/-- S2: START is refused when `blk_mode` is `NONE`. -/
theorem test_start_refused :
    (after (step (sending (State.resetWith small) .start))).map State.hostAnswers = some [.refused .notConfigured] := by decide

/-- S5: PUSH is refused in network mode. -/
theorem test_push_refused :
    (after (step (sending (net .idle 0 []) (.push 5)))).map State.hostAnswers = some [.refused .notStandalone] := by decide

/-- Rule R112: POP answers `EMPTY` in standalone mode after a network run too. -/
theorem test_pop_empty_after_network_run :
    (after (step (sending { net .done 0 [⟨[99], 0, .halted, ⟨.none, 0, 0⟩, [], []⟩, Vm.absent] with blkMode := .standalone } .pop))).map
      State.hostAnswers = some [.empty] := by decide

/-- Rules R103 and R123: a run that has ended keeps its VMs until START or RESET, whatever the mode is
now. -/
theorem test_run_refused_on_network_vms :
    (after (step (sending { net .done 0 [⟨[99], 0, .yielded, ⟨.none, 0, 0⟩, [], []⟩, Vm.absent] with blkMode := .standalone } .run))).map
      State.hostAnswers = some [.refused .networkVms] := by decide

/-- S6: the search over no permutation. -/
theorem test_search_empty : (State.resetWith small).bestSignal 0 [9] true [] = .noCandidates := by decide

/-- The status fields after N2: index 77 is the length of VM1's input queue. -/
theorem test_status_vm1_inq :
    (net .error 0 [Vm.absent, ⟨[], 0, .ready, ⟨.none, 0, 0⟩, [1], []⟩]).statusField 77 = some (.natural 1) := by decide

/-! ## Witnesses for the statements: encoding -/

theorem witness_FieldsRoundTrip :
    validWord 11101 = true ∧ rolesOf 99 = some [] ∧ rolesOf 4 = some [.value] ∧
    rolesOf 6 = some [.value, .jump] ∧ rolesOf 8 = some [.value, .value, .target] := by decide

theorem witness_DecodeInvertsEncode : ∃ i rest, decode [1101, 100, -1, 4, 0] = .ok (i, rest) := ⟨_, _, rfl⟩

theorem witness_EncodedWordsAreRepresentable : Instr.wellFormed .w32 (.add .immediate .position .position 2147483647 (-2147483648) 0) = true := by decide

theorem witness_TargetModeHasNoEffect :
    (block (vmOf [1, 0, 0, 0])).active = some 0 ∧
    operand ((block (vmOf [1, 0, 0, 0])).vm 0).mem .position 0 = .ok 1 ∧
    operand ((block (vmOf [1, 0, 0, 0])).vm 0).mem .immediate hi = .ok hi ∧
    small.width.Representable (1 + 1) ∧ small.width.Representable (1 * hi) := ⟨rfl, rfl, rfl, by decide, by decide⟩

/-! ## Witnesses: memory and operands -/

theorem witness_MemoryReadsWhatWasWritten :
    Memory.InBounds [5, 6] 0 ∧ Memory.InBounds [5, 6] 1 ∧ ¬ Memory.InBounds [5, 6] (-1) ∧ ¬ Memory.InBounds [5, 6] 2 ∧
    1 < ([5, 6] : Memory).length := by decide

theorem witness_OperandsResolveByMode :
    (Memory.InBounds [5, 6] 1 ∧ ([5, 6] : Memory)[Int.toNat 1]? = some 6) ∧ ¬ Memory.InBounds [5, 6] 2 := by decide

theorem witness_FirstFailingOperandIsReported_0 :
    (block (vmOf [1, -1, 0, 0])).active = some 0 ∧ ¬ ((block (vmOf [1, -1, 0, 0])).vm 0).mem.InBounds (-1) := by decide
theorem witness_FirstFailingOperandIsReported_1 :
    (block (vmOf [1, 0, 4, 0])).active = some 0 ∧ ((block (vmOf [1, 0, 4, 0])).vm 0).mem.InBounds 0 ∧
    ¬ ((block (vmOf [1, 0, 4, 0])).vm 0).mem.InBounds 4 := by decide
theorem witness_FirstFailingOperandIsReported_2 :
    (block (vmOf [1, 0, 3, 4])).active = some 0 ∧ ((block (vmOf [1, 0, 3, 4])).vm 0).mem.InBounds 0 ∧
    ((block (vmOf [1, 0, 3, 4])).vm 0).mem.InBounds 3 ∧ ¬ ((block (vmOf [1, 0, 3, 4])).vm 0).mem.InBounds 4 := by decide

/-! ## Witnesses: results, completion and frames -/

/-- A block whose VM has a four-word instruction with immediate operands `a` and `b` and target 0. -/
def binary (w a b : Int) : State := block (vmOf [w, a, b, 0])

theorem witness_AddStoresExactSum :
    (binary 1101 hi lo).active = some 0 ∧ operand ((binary 1101 hi lo).vm 0).mem .immediate hi = .ok hi ∧
    operand ((binary 1101 hi lo).vm 0).mem .immediate lo = .ok lo ∧ target ((binary 1101 hi lo).vm 0).mem 0 = .ok 0 ∧
    (binary 1101 hi lo).params.width.Representable (hi + lo) ∧ (binary 1101 hi 0).params.width.Representable (hi + 0) ∧
    ¬ (binary 1101 hi 1).params.width.Representable (hi + 1) := ⟨rfl, rfl, rfl, rfl, by decide, by decide, by decide⟩

theorem witness_MulStoresExactProduct :
    (binary 1102 lo 1).active = some 0 ∧ operand ((binary 1102 lo 1).vm 0).mem .immediate lo = .ok lo ∧
    operand ((binary 1102 lo 1).vm 0).mem .immediate 1 = .ok 1 ∧ target ((binary 1102 lo 1).vm 0).mem 0 = .ok 0 ∧
    (binary 1102 lo 1).params.width.Representable (lo * 1) ∧ ¬ (binary 1102 lo (-1)).params.width.Representable (lo * (-1)) :=
  ⟨rfl, rfl, rfl, rfl, by decide, by decide⟩

theorem witness_ComparisonsStoreOneOrZero :
    (binary 1107 lo hi).active = some 0 ∧ operand ((binary 1107 lo hi).vm 0).mem .immediate lo = .ok lo ∧
    operand ((binary 1107 lo hi).vm 0).mem .position 3 = .ok 0 ∧ target ((binary 1107 lo hi).vm 0).mem 3 = .ok 3 :=
  ⟨rfl, rfl, rfl, rfl⟩

theorem witness_InStoresOldestInput :
    (block (vmAt [3, 1] 0 [5, 6] [])).active = some 0 ∧ target ((block (vmAt [3, 1] 0 [5, 6] [])).vm 0).mem 1 = .ok 1 ∧
    ((block (vmAt [3, 1] 0 [5, 6] [])).vm 0).inQ = 5 :: [6] := ⟨rfl, rfl, rfl⟩

theorem witness_InWaitsOnEmptyQueue :
    (block (vmOf [3, 1])).active = some 0 ∧ ((block (vmOf [3, 1])).vm 0).inQ = [] ∧
    ((block (vmOf [3, 1])).vm 0).mem.InBounds 1 ∧ ¬ ((block (vmOf [3, 1])).vm 0).mem.InBounds 2 := by decide

theorem witness_OutAppendsOrOverflows_bounds :
    (block (vmOf [4, 2])).active = some 0 ∧ ¬ ((block (vmOf [4, 2])).vm 0).mem.InBounds 2 := by decide
theorem witness_OutAppendsOrOverflows_room :
    (block (vmAt [4, 1] 0 [] [7])).active = some 0 ∧ operand ((block (vmAt [4, 1] 0 [] [7])).vm 0).mem .position 1 = .ok 1 ∧
    queueFull (some 2) [7] = false ∧ small.yieldOnOutput = false := ⟨rfl, rfl, rfl, rfl⟩
theorem witness_OutAppendsOrOverflows_yield :
    (blockWith ⟨.w64, 2, 16, none, true⟩ (vmOf [104, 1])).active = some 0 ∧
    operand ((blockWith ⟨.w64, 2, 16, none, true⟩ (vmOf [104, 1])).vm 0).mem .immediate 1 = .ok 1 ∧
    queueFull none [] = false := ⟨rfl, rfl, rfl⟩
theorem witness_OutAppendsOrOverflows_full :
    (block (vmAt [104, 1] 0 [] [7, 8])).active = some 0 ∧
    operand ((block (vmAt [104, 1] 0 [] [7, 8])).vm 0).mem .immediate 1 = .ok 1 ∧ queueFull (some 2) [7, 8] = true :=
  ⟨rfl, rfl, rfl⟩

theorem witness_JumpsWriteResolvedTarget :
    (block (vmOf [1005, 1, -3])).active = some 0 ∧ operand ((block (vmOf [1005, 1, -3])).vm 0).mem .position 1 = .ok 1 ∧
    operand ((block (vmOf [1005, 1, -3])).vm 0).mem .immediate (-3) = .ok (-3) := ⟨rfl, rfl, rfl⟩

theorem witness_JumpOperandsAreAlwaysChecked :
    (block (vmOf [5, 2, 3])).active = some 0 ∧ ((block (vmOf [5, 2, 3])).vm 0).mem.InBounds 2 ∧
    ¬ ((block (vmOf [5, 2, 3])).vm 0).mem.InBounds 3 ∧ ¬ ((block (vmOf [5, 2, 3])).vm 0).mem.InBounds (-1) := by decide

theorem witness_HaltKeepsEverythingElse :
    (block (vmAt [0, 99] 1 [] [])).HostSilent ∧ (block (vmAt [0, 99] 1 [] [])).active = some 0 ∧
    ((block (vmAt [0, 99] 1 [] [])).vm 0).mem.read 1 = .ok 99 := ⟨rfl, rfl, rfl⟩

theorem witness_ArithmeticFrame :
    (binary 1101 2 3).active = some 0 ∧ ∃ t, exec (.add .immediate .immediate .position 2 3 0) (binary 1101 2 3) = .next t ∧
      (t.vm 0).state ≠ .faulted ∧ target ((binary 1101 2 3).vm 0).mem 0 = .ok 0 := ⟨rfl, _, rfl, by decide, rfl⟩

theorem witness_InFrame :
    (block (vmAt [3, 1] 0 [5] [])).active = some 0 ∧
    ∃ t, exec (.inp .position 1) (block (vmAt [3, 1] 0 [5] [])) = .next t ∧ (t.vm 0).state ≠ .faulted := ⟨rfl, _, rfl, by decide⟩

theorem witness_OutFrame :
    (block (vmOf [104, 1])).active = some 0 ∧
    ∃ t, exec (.out .immediate 1) (block (vmOf [104, 1])) = .next t ∧ (t.vm 0).state ≠ .faulted := ⟨rfl, _, rfl, by decide⟩

theorem witness_ControlFrame :
    (block (vmOf [1105, 1, 0])).active = some 0 ∧
    (∃ t, exec (.jt .immediate .immediate 1 0) (block (vmOf [1105, 1, 0])) = .next t ∧ (t.vm 0).state ≠ .faulted) ∧
    (∃ t, exec .halt (block (vmOf [1105, 1, 0])) = .next t ∧ (t.vm 0).state ≠ .faulted) :=
  ⟨rfl, ⟨_, rfl, by decide⟩, ⟨_, rfl, by decide⟩⟩

/-! ## Witnesses: fetch and step -/

theorem witness_StepRunsDecodedInstruction :
    (block (vmAt [0, 104, 5] 1 [] [])).active = some 0 ∧ Memory.InBounds [0, 104, 5] 1 ∧
    decode ((([0, 104, 5] : Memory)).drop 1) = .ok (.out .immediate 5, []) ∧
    (block (vmAt [0, 104, 5] 1 [] [])).hostMoves = [] ∧
    ({ block (vmAt [0, 104, 5] 1 [] []) with hostMoves := [.blockStep] } : State).hostMoves = .blockStep :: [] :=
  ⟨rfl, by decide, rfl, rfl, rfl⟩

theorem witness_FetchOutsideMemoryFaults :
    (block (vmAt [99] 1 [] [])).HostSilent ∧ (block (vmAt [99] 1 [] [])).active = some 0 ∧
    ¬ Memory.InBounds [99] 1 ∧ ¬ Memory.InBounds [99] (-3) := ⟨rfl, rfl, by decide, by decide⟩

theorem witness_InvalidWordFaults :
    (block (vmOf [9])).active = some 0 ∧ ((block (vmOf [9])).vm 0).mem.read 0 = .ok 9 ∧ validWord 9 = false := ⟨rfl, rfl, rfl⟩

theorem witness_MissingParameterFaults :
    (block (vmOf [1101, 1, 2])).active = some 0 ∧ ((block (vmOf [1101, 1, 2])).vm 0).mem.read 0 = .ok 1101 ∧
    validWord 1101 = true ∧ rolesOf (opcodeOf 1101) = some [.value, .value, .target] ∧ ((3 : Nat) : Int) ≤ 0 + (3 : Nat) :=
  ⟨rfl, rfl, rfl, rfl, by decide⟩

theorem witness_FaultsArePrecise :
    (block (vmOf [9])).active = some 0 ∧ ∃ t, step (block (vmOf [9])) = .next t ∧ (t.vm 0).state = .faulted := ⟨rfl, _, rfl, rfl⟩

theorem witness_StepIsReferenceStep :
    (block (vmOf [99])).HostSilent ∧ (block (vmOf [99])).active = some 0 ∧
    (net .turnRun 1 [Vm.absent, vmOf [99]]).active = some 1 := ⟨rfl, rfl, rfl⟩

/-! ## Witnesses: whole-machine rules -/

/-- A VM in order in the small block. -/
theorem vmOf_ok (v : Vm) (h : v = vmOf [1101, 2, 3, 0, 99] ∨ v = Vm.absent) : v.Ok small := by
  rcases h with rfl | rfl
  · exact ⟨by decide, by decide, by decide, by decide, ⟨by decide, by decide⟩, ⟨by decide, by decide⟩, fun _ => rfl, fun h => by cases h⟩
  · exact ⟨by decide, by decide, by decide, by decide, ⟨by decide, by decide⟩, ⟨by decide, by decide⟩, fun _ => rfl, fun h => by cases h⟩

theorem witness_StepKeepsInvariant :
    (block (vmOf [1101, 2, 3, 0, 99])).Inv ∧ ∃ t, step (block (vmOf [1101, 2, 3, 0, 99])) = .next t := by
  refine ⟨⟨by decide, rfl, rfl, by decide, by decide, by decide, by decide, by decide, by decide, by decide,
    fun v hv => vmOf_ok v (by simpa [block, blockWith] using hv), (fun h => by cases h), fun i hi => ?_,
    (fun t ht => by cases ht)⟩, _, rfl⟩
  match i, hi with
  | 0, _ => rfl
  | 1, hi => cases hi
  | n + 2, hi => cases hi

theorem witness_ResetMeetsInvariant : small.Legal := by decide

theorem witness_LifecycleMovesAreLegal :
    ∃ t, step (sending { block (vmOf [99]) with vms := [⟨[99], 0, .halted, ⟨.none, 0, 0⟩, [], []⟩, Vm.absent] } .start) = .next t ∧
      (t.vm 0).state = .ready := ⟨_, rfl, rfl⟩

theorem witness_TerminalVmsStay :
    ∃ t, step (block ⟨[99], 0, .halted, ⟨.none, 0, 0⟩, [], []⟩) = .next t ∧
      ((block ⟨[99], 0, .halted, ⟨.none, 0, 0⟩, [], []⟩).vm 0).state.Terminal ∧
      ∀ rest, (block ⟨[99], 0, .halted, ⟨.none, 0, 0⟩, [], []⟩).hostMoves ≠ .transaction .reset :: rest :=
  ⟨_, rfl, by decide, fun _ h => by cases h⟩

theorem witness_MemoryBelongsToItsVm :
    (block (vmOf [99])).HostSilent ∧ (∃ t, step (block (vmOf [99])) = .next t) ∧ (block (vmOf [99])).active ≠ some 1 :=
  ⟨rfl, ⟨_, rfl⟩, by decide⟩

theorem witness_OnlyLoadWritesProgram : ∃ t, step (sending (State.resetWith small) (.load [99])) = .next t ∧ t.prog = [99] :=
  ⟨_, rfl, rfl⟩

theorem witness_HostLeavesVmsAlone :
    (sending (block ⟨[99], 0, .ready, ⟨.none, 0, 0⟩, [], []⟩) .run).hostMoves = .transaction .run :: [] ∧
    (∃ t, step (sending (block ⟨[99], 0, .ready, ⟨.none, 0, 0⟩, [], []⟩) .run) = .next t) ∧
    Txn.run ≠ .reset ∧ Txn.run ≠ .start := ⟨rfl, ⟨_, rfl⟩, by decide, by decide⟩

theorem witness_OnlySendAndCollectRaiseNetworkErrors :
    (net .turnCollect 0 [⟨[], 4, .awaitingInput, ⟨.none, 0, 0⟩, [], []⟩, Vm.absent]).HostSilent ∧
    ∃ t, step (net .turnCollect 0 [⟨[], 4, .awaitingInput, ⟨.none, 0, 0⟩, [], []⟩, Vm.absent]) = .next t ∧
      t.netErr ≠ ⟨.none, 0, 0, 0⟩ := ⟨rfl, _, rfl, by decide⟩

/-! ## Witnesses: the orchestrator -/

/-- A VM in the lifecycle state `st` with the output queue `outQ`. -/
def stopped (st : VmState) (outQ : List Int) : Vm := ⟨[99], 0, st, ⟨.none, 0, 0⟩, [], outQ⟩

theorem witness_StartLaunchesNetwork :
    (sending (net .idle 0 []) .start).hostMoves = .transaction .start :: [] ∧
    (sending (net .idle 0 []) .start).blkMode = .network ∧ (sending (net .idle 0 []) .start).busy = false := by decide

theorem witness_SendForwardsSignal_full :
    (net .turnSend 0 [⟨[99], 0, .ready, ⟨.none, 0, 0⟩, [1, 2], []⟩]).HostSilent ∧
    queueFull small.qCap ((net .turnSend 0 [⟨[99], 0, .ready, ⟨.none, 0, 0⟩, [1, 2], []⟩]).vm 0).inQ = true ∧
    ({ net .turnSend 0 [] with sigValid := true } : State).sigValid = true := by decide
theorem witness_SendForwardsSignal_room :
    (net .turnSend 1 [Vm.absent, ⟨[99], 0, .ready, ⟨.none, 0, 0⟩, [1], []⟩]).HostSilent ∧
    queueFull small.qCap ((net .turnSend 1 [Vm.absent, ⟨[99], 0, .ready, ⟨.none, 0, 0⟩, [1], []⟩]).vm 1).inQ = false ∧
    (net .turnSend 1 []).sigValid = false := by decide

theorem witness_RunStepsOnlyTheVisitedVm :
    (net .turnRun 0 [vmOf [99]]).HostSilent ∧ (net .turnRun 0 [vmOf [99]]).netState = .turnRun ∧
    ((net .turnRun 0 [vmOf [99]]).vm 0).state = .running ∧ ((net .turnRun 0 [stopped .halted []]).vm 0).state ≠ .running := by
  decide

theorem witness_CollectTakesOneOutput_fault :
    (net .turnCollect 0 [stopped .faulted [5]]).HostSilent ∧ ((net .turnCollect 0 [stopped .faulted [5]]).vm 0).state = .faulted := by
  decide
theorem witness_CollectTakesOneOutput_output :
    ((net .turnCollect 0 [stopped .halted [5, 6]]).vm 0).state ≠ .faulted ∧
    ((net .turnCollect 0 [stopped .halted [5, 6]]).vm 0).outQ = 5 :: [6] ∧ 0 + 1 < small.n ∧ ¬ 1 + 1 < small.n := by decide
theorem witness_CollectTakesOneOutput_drain :
    ((net .turnCollect 1 [Vm.absent, stopped .halted []]).vm 1).state = .halted ∧
    ((net .turnCollect 1 [Vm.absent, stopped .halted []]).vm 1).outQ = [] := by decide
theorem witness_CollectTakesOneOutput_starved :
    ((net .turnCollect 0 [stopped .awaitingInput []]).vm 0).state ≠ .faulted ∧
    ((net .turnCollect 0 [stopped .awaitingInput []]).vm 0).state ≠ .halted ∧
    ((net .turnCollect 0 [stopped .awaitingInput []]).vm 0).outQ = [] := by decide

theorem witness_PassEndStopsOrRepeats :
    (net .passEnd 1 []).HostSilent ∧ (net .passEnd 1 []).netState = .passEnd ∧ (net .passEnd 1 []).feedback = false ∧
    ¬ (({ net .passEnd 1 [Vm.absent, stopped .awaitingInput []] with feedback := true } : State).feedback = false ∨
      ((net .passEnd 1 [Vm.absent, stopped .awaitingInput []]).vm (small.n - 1)).state = .halted) := by decide

theorem witness_FinalStatesHaveNoStep :
    (net .done 0 [stopped .halted []]).HostSilent ∧ (net .done 0 [stopped .halted []]).netState = .done ∧
    (net .error 0 [stopped .faulted []]).netState = .error ∧
    (block (stopped .ready [])).netState = .idle ∧ (block (stopped .ready [])).busy = false := by decide

theorem witness_OrchestratorNeverWaits :
    (net .turnRun 0 [stopped .halted []]).HostSilent ∧ (net .turnRun 0 [stopped .halted []]).netBusy = true ∧
    ((net .turnRun 0 [stopped .halted []]).vm 0).state ≠ .running := by decide

/-- A launched network of one VM with the program `ws`. -/
def launched (ws : List Int) : State :=
  { State.resetWith ⟨.w64, 1, 16, some 2, false⟩ with
    blkMode := .network, netState := .turnSend, sigValid := true, prog := ws
    vms := [{ Vm.construct ws with inQ := [7] }] }

theorem witness_NetworkRunIsReferenceRun :
    (launched [104, 5, 99]).HostSilent ∧ (launched [104, 5, 99]).turn = 0 ∧ 1 ≤ (launched [104, 5, 99]).params.n ∧
    (launched [104, 5, 99]).vms.length = (launched [104, 5, 99]).params.n ∧
    refNetwork 2 1 (launched [104, 5, 99]) = some (.done 5, 1) ∧
    refNetwork 1 1 (launched [9]) = some (.error ⟨.invalidInstruction, 0, 9, 0⟩, 0) := by decide

/-! ## Witnesses: reset and the host -/

theorem witness_ResetSetsEveryField :
    (sending (net .turnRun 0 [vmOf [99]]) .reset).hostMoves = .transaction .reset :: [] := by decide

theorem witness_RefusedTransactionChangesNothing :
    (sending (State.resetWith small) .start).hostMoves = .transaction .start :: [] ∧
    (sending (State.resetWith small) .start).refusal .start = some .notConfigured := by decide
theorem witness_RefusedTransactionChangesNothing_cases :
    (net .idle 0 []).blkMode ≠ .standalone ∧ (net .passEnd 0 []).netState ≠ .idle ∧
    (net .done 0 [stopped .yielded [5]]).netState ≠ .idle ∧
    ((net .done 0 [stopped .yielded [5]]).vm 0).state ∈ [VmState.ready, .awaitingInput, .yielded] ∧
    ((net .done 0 [stopped .yielded [5]]).vm 0).outQ ≠ [] ∧ ((block (vmOf [99])).vm 0).state = .running ∧
    queueFull small.qCap ((block (vmAt [99] 0 [1, 2] [])).vm 0).inQ = true ∧ ((State.resetWith small).vm 0).state = .absent ∧
    ¬ ((block (vmOf [99])).vm 0).mem.InBounds 1 ∧ ¬ ((block (vmOf [99])).vm 0).mem.InBounds (-1) := by decide

theorem witness_BusyBlockRefuses : (net .passEnd 0 []).busy = true ∧ (block (vmOf [99])).busy = true := by decide

theorem witness_LoadAndConfigureWrite :
    (State.resetWith small).busy = false ∧ (List.replicate 16 (99 : Int)).length ≤ small.memCap ∧
    AllRepresentable small.width (List.replicate 16 99) ∧ small.memCap < (List.replicate 17 (99 : Int)).length ∧
    ([hi, lo] : List Int).length = small.n ∧ AllRepresentable small.width [hi, lo] := by decide

theorem witness_StartBuildsStandaloneVm :
    (sending (block (stopped .halted [])) .start).busy = false ∧
    (sending (block (stopped .halted [])) .start).blkMode = .standalone ∧ 1 ≤ small.n ∧
    (sending (State.resetWith small) .start).busy = false ∧ (sending (State.resetWith small) .start).blkMode = .none := by decide

theorem witness_PushAppendsAndPopTakesOldest :
    (block (stopped .ready [5])).blkMode = .standalone ∧ (block (stopped .ready [5])).netState = .idle ∧ ((block (stopped .ready [5])).vm 0).state ≠ .running ∧
    small.width.Representable hi ∧ queueFull small.qCap ((block (stopped .ready [5])).vm 0).inQ = false ∧
    ((block (stopped .ready [5])).vm 0).outQ = 5 :: [] ∧ ((block (stopped .ready [])).vm 0).outQ = [] := by decide

theorem witness_RunResumesOrReturnsAtOnce :
    (block (stopped .yielded [])).blkMode = .standalone ∧ (block (stopped .yielded [])).netState = .idle ∧
    ((block (stopped .yielded [])).vm 0).state ∈ [VmState.ready, .awaitingInput, .yielded] ∧
    ((block (stopped .faulted [])).vm 0).state.Terminal := by decide

theorem witness_ReadsChangeNothing :
    (block (stopped .halted [])).busy = false ∧ ((block (stopped .halted [])).vm 0).state ≠ .absent ∧
    ((block (stopped .halted [])).vm 0).mem.read 0 = .ok 99 ∧ (block (vmOf [99])).statusField 0 = some (.natural 1) ∧
    (block (vmOf [99])).statusField 14 = none := ⟨rfl, by decide, rfl, rfl, rfl⟩

theorem witness_StatusIndicesNameTheirFields : small.n ≤ 32 ∧ (⟨.w64, 32, 16, none, false⟩ : Params).n ≤ 32 ∧ 1 < small.n := by decide

/-- A halted standalone block, with START and RUN to come. -/
def restarting : State := { block (stopped .halted []) with hostMoves := [.transaction .start, .transaction .run] }

theorem witness_EmptyImageFaultsAtZero :
    restarting.params.Legal ∧ restarting.prog = [] ∧ restarting.busy = false ∧ restarting.blkMode = .standalone ∧
    restarting.hostMoves = [.transaction .start, .transaction .run] ∧ (sending (net .done 0 []) .start).prog = [] ∧
    (sending (net .done 0 []) .start).busy = false ∧ (sending (net .done 0 []) .start).blkMode = .network ∧
    (sending (net .done 0 []) .start).hostMoves = [.transaction .start] := by decide

/-- A block of one VM after RESET. -/
def single : State := State.resetWith ⟨.w64, 1, 16, some 2, false⟩

/-- A program that outputs 1 and halts on the phase 0, and jumps out of its memory on any other. -/
def picky : List Int := [3, 0, 1005, 0, 8, 104, 1, 99]

theorem witness_SearchAbortsOnNetworkError :
    ∃ s0, single.request (.load picky) = .ok s0 ∧
      (∃ t, s0.networkRun 9 true [0] = .ok t ∧ t.netState = .done) ∧
      s0.networkRun 9 true [4] = .error (.networkError ⟨.outOfBounds, 8, 0, 0⟩) := ⟨_, rfl, ⟨_, rfl, rfl⟩, rfl⟩

theorem witness_SearchAnswersGreatestResult :
    ∃ s0, single.request (.load [3, 5, 4, 5, 99, 0]) = .ok s0 ∧
      single.bestSignal 10 [3, 5, 4, 5, 99, 0] false [[1], [4], [2]] = .best 4 := ⟨_, rfl, rfl⟩

/-! ## Witnesses: waiting host moves, ended runs -/

theorem witness_BlockStepLeavesHostMoves :
    ({ block (vmOf [99]) with hostMoves := [.blockStep, .transaction .pop] } : State).hostMoves = .blockStep :: [.transaction .pop] := rfl

theorem witness_EndedNetworkKeepsItsVms :
    (sending (net .done 0 [stopped .halted [5]]) .pop).netState = .done ∧
    (∃ t, step (sending (net .done 0 [stopped .halted [5]]) .pop) = .next t) ∧
    (∀ rest, (sending (net .done 0 [stopped .halted [5]]) .pop).hostMoves ≠ .transaction .reset :: rest) ∧
    (∀ rest, (sending (net .done 0 [stopped .halted [5]]) .pop).hostMoves ≠ .transaction .start :: rest) ∧
    (net .error 0 [stopped .faulted []]).netState = .error :=
  ⟨rfl, ⟨_, rfl⟩, by simp [sending], by simp [sending], rfl⟩

end Sys2Proof.Tests
end

/-! # Proofs of the scope family (`00_scope.md`)

The encoder's words and the decoder's answers; what one VM step can do; the step of the block, operation by
operation; and from these the statements about memory, faults and the invariant. -/

/-! ## The words of an instruction -/

namespace Sys2Proof

theorem Mode.digit_bounds (m : Mode) : 0 ≤ m.digit ∧ m.digit ≤ 1 := by
  cases m <;> decide

/-- Two-digit opcodes and binary mode digits make a word of at most five digits. -/
theorem encodeFields_bounds {f : Fields} (hop : 0 ≤ f.opcode ∧ f.opcode ≤ 99)
    (h0 : 0 ≤ f.mode0 ∧ f.mode0 ≤ 1) (h1 : 0 ≤ f.mode1 ∧ f.mode1 ≤ 1) (h2 : 0 ≤ f.mode2 ∧ f.mode2 ≤ 1) :
    0 ≤ encodeFields f ∧ encodeFields f ≤ 11199 := by
  unfold encodeFields
  omega

theorem encodeWord_bounds (i : Instr) : 0 ≤ encodeWord i ∧ encodeWord i ≤ 11199 := by
  have hz : (0 : Int) ≤ 0 ∧ (0 : Int) ≤ 1 := by decide
  cases i with
  | add m0 m1 m2 | mul m0 m1 m2 | lt m0 m1 m2 | eq m0 m1 m2 =>
    exact encodeFields_bounds (by simp [Instr.fields]) m0.digit_bounds m1.digit_bounds m2.digit_bounds
  | inp m0 | out m0 => exact encodeFields_bounds (by simp [Instr.fields]) m0.digit_bounds hz hz
  | jt m0 m1 | jf m0 m1 => exact encodeFields_bounds (by simp [Instr.fields]) m0.digit_bounds m1.digit_bounds hz
  | halt => exact encodeFields_bounds (by decide) hz hz hz

theorem Width.representable_encodeWord (w : Width) (i : Instr) : w.Representable (encodeWord i) := by
  obtain ⟨hlo, hhi⟩ := encodeWord_bounds i
  cases w <;> simp only [Width.Representable, Width.minWord, Width.maxWord] <;> omega

theorem Width.representable_zero (w : Width) : w.Representable 0 := by
  cases w <;> decide

theorem encode_length (i : Instr) : (encode i).length = i.length := by
  simp [encode, Instr.length, Nat.add_comm]

/-- Settles O4: the instruction word lies in `[0, 11199]`, and well-formedness bounds the parameters. -/
theorem encodedWordsAreRepresentable : Obligations.EncodedWordsAreRepresentable := by
  intro w i hwf
  have hparams : ∀ v ∈ i.params, w.Representable v := by simpa [Instr.wellFormed] using hwf
  refine ⟨fun v hv => ?_, encode_length i⟩
  rcases List.mem_cons.1 hv with rfl | hv
  · exact w.representable_encodeWord i
  · exact hparams v hv

/-! ## The decoder's answers -/

/-- What the decoder may answer for the words `ps` after the instruction word `w`: an instruction whose
parameter words they begin with, the first parameter that is missing, or the illegal word. -/
def TakenFrom (w : Int) (ps : List Int) : Except Reject (Instr × List Int) → Prop
  | .ok (i, rest) => ps = i.params ++ rest
  | .error r => r = .missingParameter ps.length ∨ r = .illegalWord w

variable (w : Int) (ps : List Int)

theorem takeOne_takenFrom {mk : Int → Instr} (h : ∀ p0, (mk p0).params = [p0]) :
    TakenFrom w ps (takeOne mk ps) := by
  match ps with
  | [] => exact .inl rfl
  | p0 :: rest => simp [takeOne, TakenFrom, h]

theorem takeTwo_takenFrom {mk : Int → Int → Instr} (h : ∀ p0 p1, (mk p0 p1).params = [p0, p1]) :
    TakenFrom w ps (takeTwo mk ps) := by
  match ps with
  | [] | [_] => exact .inl rfl
  | p0 :: p1 :: rest => simp [takeTwo, TakenFrom, h]

theorem takeThree_takenFrom {mk : Int → Int → Int → Instr}
    (h : ∀ p0 p1 p2, (mk p0 p1 p2).params = [p0, p1, p2]) : TakenFrom w ps (takeThree mk ps) := by
  match ps with
  | [] | [_] | [_, _] => exact .inl rfl
  | p0 :: p1 :: p2 :: rest => simp [takeThree, TakenFrom, h]

theorem decodeParams_takenFrom : TakenFrom w ps (decodeParams w ps) := by
  unfold decodeParams
  split_ifs
  · exact takeThree_takenFrom w ps fun _ _ _ => rfl
  · exact takeThree_takenFrom w ps fun _ _ _ => rfl
  · exact takeOne_takenFrom w ps fun _ => rfl
  · exact takeOne_takenFrom w ps fun _ => rfl
  · exact takeTwo_takenFrom w ps fun _ _ => rfl
  · exact takeTwo_takenFrom w ps fun _ _ => rfl
  · exact takeThree_takenFrom w ps fun _ _ _ => rfl
  · exact takeThree_takenFrom w ps fun _ _ _ => rfl
  · rfl
  · exact .inr rfl

theorem decode_cons_takenFrom : TakenFrom w ps (decode (w :: ps)) := by
  simp only [decode]
  split
  · exact decodeParams_takenFrom w ps
  · exact .inr rfl

/-- The words of a decoded instruction: its instruction word, its parameters, and those left over. -/
theorem decode_ok_words {ws rest : List Int} {i : Instr} (h : decode ws = .ok (i, rest)) :
    ∃ w, ws = w :: (i.params ++ rest) := by
  cases ws with
  | nil => cases h
  | cons w ps =>
    have ht := decode_cons_takenFrom w ps
    rw [h] at ht
    exact ⟨w, congrArg (w :: ·) ht⟩

/-- Why a non-empty list of words is rejected. -/
theorem decode_cons_error {r : Reject} (h : decode (w :: ps) = .error r) :
    r = .missingParameter ps.length ∨ r = .illegalWord w := by
  have ht := decode_cons_takenFrom w ps
  rwa [h] at ht

end Sys2Proof

/-! ## Memory -/

namespace Sys2Proof.Machine

/-- Settles O8, from the rules of a read after a write. -/
theorem memoryReadsWhatWasWritten : Obligations.MemoryReadsWhatWasWritten := by
  intro m a v
  refine ⟨fun ha => ⟨m.store a v, if_pos ha, Memory.store_length m a v, Memory.read_store_self m a v ha,
    fun b hb => Memory.read_store_of_ne m a b v ha.1 hb⟩,
    fun ha => ⟨Memory.read_of_not_inBounds m a ha, if_neg ha⟩, fun n hn => ⟨m[n], by simp [hn], ?_⟩⟩
  rw [Memory.read_of_inBounds m n ⟨by omega, by omega⟩]
  simp [List.getD_eq_getElem?_getD, hn]

/-! ## What one step of a VM can do -/

/-- The fault a step of `vm` can raise: the fetch's, an operand's or the instruction's own (rules R70 to
R75, R86, R92). -/
inductive Vm.StepFault (vm : Vm) : VmErr → Prop
  /-- `ip`, the end of memory, or a word of memory is read as an address outside memory. -/
  | outOfBounds {a : Int} (h : a = vm.ip ∨ a = vm.mem.length ∨ a ∈ vm.mem) : StepFault vm (.outOfBounds a)
  | invalidInstruction {w : Int} (h : w ∈ vm.mem) : StepFault vm ⟨.invalidInstruction, vm.ip, w⟩
  | overflow (i : Instr) : StepFault vm ⟨.overflow, vm.ip, encodeWord i⟩
  | queueOverflow (i : Instr) : StepFault vm ⟨.queueOverflow, vm.ip, encodeWord i⟩

theorem Vm.StepFault.isVmFault {vm : Vm} {e : VmErr} (h : vm.StepFault e) : e.kind.IsVmFault := by
  cases h <;> simp [ErrKind.IsVmFault, VmErr.outOfBounds]

/-- What the instruction `i` makes of `vm` when it does not fault (rules R87 to R96). -/
inductive Vm.Effect (p : Params) (i : Instr) (vm : Vm) : Vm → Prop
  /-- ADD, MUL, LT and EQ store a result. -/
  | stored (t r : Int) (hr : p.width.Representable r) : Effect p i vm (vm.storeAndAdvance t r i.length)
  /-- IN waits. -/
  | waited : Effect p i vm { vm with state := .awaitingInput }
  /-- IN takes the oldest value. -/
  | took (t v : Int) (rest : List Int) (hq : vm.inQ = v :: rest) :
      Effect p i vm { vm.storeAndAdvance t v i.length with inQ := rest }
  /-- OUT appends a value. -/
  | put (v : Int) (hv : v ∈ i.params ∨ v ∈ vm.mem) (hq : queueFull p.qCap vm.outQ = false) :
      Effect p i vm { vm with
        outQ := push vm.outQ v
        ip := vm.ip + i.length
        state := if p.yieldOnOutput then .yielded else vm.state }
  /-- JT and JF go to their target or on. -/
  | jumped (t : Int) (ht : t ∈ i.params ∨ t ∈ vm.mem ∨ t = vm.ip + i.length) :
      Effect p i vm { vm with ip := t }
  | halted : Effect p i vm { vm with state := .halted }

variable {p : Params} {vm vm' : Vm}

/-- A resolved operand is the parameter word or a word of memory. -/
theorem operand_mem {m : Memory} {md : Mode} {a x : Int} (h : operand m md a = .ok x) : x = a ∨ x ∈ m := by
  rcases operand_ok m a h with ⟨-, rfl⟩ | ⟨-, -, -, hx⟩
  · exact .inl rfl
  · exact .inr hx

section Shapes

variable {i : Instr} {m0 m1 : Mode} {p0 p1 p2 : Int} {f : Int → Int → Except VmErr Int} {taken : Int → Bool}

/-- ADD, MUL, LT and EQ store what they compute, which is representable. -/
theorem Vm.Effect.of_storeResult (hlen : i.length = 4)
    (hf : ∀ a b r, f a b = .ok r → p.width.Representable r)
    (h : storeResultEffect m0 m1 p0 p1 p2 f vm = .ok vm') : vm.Effect p i vm' := by
  obtain ⟨a, b, t, r, -, -, -, hr, rfl⟩ := (storeResultEffect_ok vm m0 m1 p0 p1 p2).1 h
  have hs : vm.Effect p i (vm.storeAndAdvance t r i.length) := .stored t r (hf a b r hr)
  rwa [hlen] at hs

theorem Vm.Effect.of_jump (hparams : i.params = [p0, p1]) (h : jumpEffect m0 m1 p0 p1 taken vm = .ok vm') :
    vm.Effect p i vm' := by
  obtain ⟨c, t, -, ht, rfl⟩ := (jumpEffect_ok vm m0 m1 p0 p1).1 h
  refine .jumped _ ?_
  split
  · rcases operand_mem ht with rfl | hm
    · exact .inl (by simp [hparams])
    · exact .inr (.inl hm)
  · exact .inr (.inr (by simp [Instr.length, hparams]))

/-- The addresses `V V T` reports are its parameter words. -/
theorem resolveVVT_error_address {m : Memory} {e : VmErr} (h : resolveVVT m m0 m1 p0 p1 p2 = .error e) :
    ∃ a ∈ [p0, p1, p2], e = .outOfBounds a := by
  rcases (resolveVVT_error m m0 m1 p0 p1 p2).1 h with h | ⟨-, -, h⟩ | ⟨-, -, -, -, h⟩
  · exact ⟨p0, by simp, (operand_error m p0 h).2.2⟩
  · exact ⟨p1, by simp, (operand_error m p1 h).2.2⟩
  · exact ⟨p2, by simp, (target_error m p2 h).2⟩

theorem resolveVJ_error_address {m : Memory} {e : VmErr} (h : resolveVJ m m0 m1 p0 p1 = .error e) :
    ∃ a ∈ [p0, p1], e = .outOfBounds a := by
  rcases (resolveVJ_error m m0 m1 p0 p1).1 h with h | ⟨-, -, h⟩
  · exact ⟨p0, by simp, (operand_error m p0 h).2.2⟩
  · exact ⟨p1, by simp, (operand_error m p1 h).2.2⟩

/-- An address among the parameters of an instruction fetched from memory is a word of memory. -/
theorem Vm.StepFault.of_param (hi : ∀ q ∈ i.params, q ∈ vm.mem) {e : VmErr}
    (h : ∃ a ∈ i.params, e = .outOfBounds a) : vm.StepFault e := by
  obtain ⟨a, ha, rfl⟩ := h
  exact .outOfBounds (.inr (.inr (hi a ha)))

theorem Vm.StepFault.of_storeResult {e : VmErr} (hparams : i.params = [p0, p1, p2])
    (hi : ∀ q ∈ i.params, q ∈ vm.mem) (hf : ∀ a b e, f a b = .error e → vm.StepFault e)
    (h : storeResultEffect m0 m1 p0 p1 p2 f vm = .error e) : vm.StepFault e := by
  rcases (storeResultEffect_error vm m0 m1 p0 p1 p2).1 h with h | ⟨a, b, -, -, -, -, h⟩
  · exact .of_param hi (hparams ▸ resolveVVT_error_address h)
  · exact hf a b e h

theorem Vm.StepFault.of_jump {e : VmErr} (hparams : i.params = [p0, p1]) (hi : ∀ q ∈ i.params, q ∈ vm.mem)
    (h : jumpEffect m0 m1 p0 p1 taken vm = .error e) : vm.StepFault e :=
  .of_param hi (hparams ▸ resolveVJ_error_address ((jumpEffect_error vm m0 m1 p0 p1).1 h))

theorem Vm.StepFault.of_checkedResult {w : Width} {r : Int} {e : VmErr}
    (h : checkedResult w vm.ip (encodeWord i) r = .error e) : vm.StepFault e := by
  obtain ⟨-, rfl⟩ := (checkedResult_error w vm.ip (encodeWord i) r).1 h
  exact .overflow i

theorem representable_of_checkedResult {w : Width} {ip word r x : Int} (h : checkedResult w ip word r = .ok x) :
    w.Representable x := by
  obtain ⟨hr, rfl⟩ := (checkedResult_ok w ip word r).1 h
  exact hr

end Shapes

/-- What an instruction that does not fault has done. -/
theorem effectOf_ok {i : Instr} (h : effectOf i p vm = .ok vm') : vm.Effect p i vm' := by
  cases i with
  | add => exact .of_storeResult rfl (fun _ _ _ => representable_of_checkedResult) h
  | mul => exact .of_storeResult rfl (fun _ _ _ => representable_of_checkedResult) h
  | lt | eq =>
    simp only [effectOf_lt, effectOf_eq] at h
    refine .of_storeResult rfl (fun a b r hr => ?_) h
    cases hr
    exact representable_truthWord _ _
  | inp m0 p0 =>
    rcases inEffect_ok vm p0 h with ⟨-, ⟨-, rfl⟩ | ⟨v, rest, hq, rfl⟩⟩
    · exact .waited
    · exact .took p0 v rest hq
  | out m0 p0 =>
    obtain ⟨v, hv, hq, rfl⟩ := outEffect_ok p vm m0 p0 h
    exact .put v ((operand_mem hv).imp_left fun e => by simp [Instr.params, e]) hq
  | jt | jf =>
    simp only [effectOf_jt, effectOf_jf] at h
    exact .of_jump rfl h
  | halt => cases h; exact .halted

/-- The faults of an instruction whose parameters are words of memory. -/
theorem effectOf_error {i : Instr} {e : VmErr} (hi : ∀ q ∈ i.params, q ∈ vm.mem)
    (h : effectOf i p vm = .error e) : vm.StepFault e := by
  cases i with
  | add => exact .of_storeResult rfl hi (fun _ _ _ => .of_checkedResult) h
  | mul => exact .of_storeResult rfl hi (fun _ _ _ => .of_checkedResult) h
  | lt | eq =>
    simp only [effectOf_lt, effectOf_eq] at h
    exact .of_storeResult rfl hi (fun _ _ _ he => by cases he) h
  | inp m0 p0 => exact .of_param hi ⟨p0, by simp [Instr.params], (inEffect_error vm p0 h).2⟩
  | out m0 p0 =>
    rcases outEffect_error p vm m0 p0 h with h | ⟨-, rfl⟩
    · exact .of_param hi ⟨p0, by simp [Instr.params], (operand_error vm.mem p0 h).2.2⟩
    · exact .queueOverflow _
  | jt | jf =>
    simp only [effectOf_jt, effectOf_jf] at h
    exact .of_jump rfl hi h
  | halt => cases h

/-- A fetched instruction lies in memory with all its words. -/
theorem Vm.fetch_ok_inMemory {i : Instr} (h : vm.fetch = .ok i) :
    0 ≤ vm.ip ∧ vm.ip + i.length ≤ vm.mem.length ∧ ∀ q ∈ i.params, q ∈ vm.mem := by
  obtain ⟨⟨h0, h1⟩, rest, hd⟩ := Vm.fetch_ok h
  obtain ⟨w, hw⟩ := decode_ok_words hd
  have hlen := congrArg List.length hw
  simp only [List.length_drop, List.length_cons, List.length_append] at hlen
  refine ⟨h0, by unfold Instr.length; omega, fun q hq => List.mem_of_mem_drop (i := vm.ip.toNat) ?_⟩
  simp [hw, hq]

theorem Vm.fetch_error_stepFault {e : VmErr} (h : vm.fetch = .error e) : vm.StepFault e := by
  rcases Vm.fetch_error h with ⟨-, rfl⟩ | ⟨hb, r, hd, rfl⟩
  · exact .outOfBounds (.inl rfl)
  · have hlt : vm.ip.toNat < vm.mem.length := Memory.toNat_lt _ _ hb
    rw [List.drop_eq_getElem_cons hlt] at hd
    rcases decode_cons_error _ _ hd with rfl | rfl
    · obtain ⟨h0, -⟩ := hb
      refine .outOfBounds (.inr (.inl ?_))
      simp only [List.length_drop]
      omega
    · exact .invalidInstruction (List.getElem_mem hlt)

/-- One step of a VM: a fault that changes nothing else, or the effect of an instruction of memory. -/
theorem Vm.next_cases (p : Params) (vm : Vm) :
    (∃ e, vm.StepFault e ∧ vm.next p = vm.raise e) ∨
    ∃ i, vm.fetch = .ok i ∧ vm.Effect p i (vm.next p) := by
  unfold Vm.next
  cases hf : vm.fetch with
  | error e => exact .inl ⟨e, Vm.fetch_error_stepFault hf, rfl⟩
  | ok i =>
    obtain ⟨-, -, hi⟩ := Vm.fetch_ok_inMemory hf
    cases he : effectOf i p vm with
    | error e => exact .inl ⟨e, effectOf_error hi he, by simp [he, Vm.settle]⟩
    | ok vm' => exact .inr ⟨i, rfl, by simpa [he, Vm.settle] using effectOf_ok he⟩

/-- An instruction that does not fault leaves a VM that is not `Faulted`, and its record as it was. -/
theorem Vm.Effect.no_fault {i : Instr} (h : vm.Effect p i vm') (hs : vm.state ≠ .faulted) :
    vm'.state ≠ .faulted ∧ vm'.err = vm.err := by
  cases h with
  | stored | took | jumped => exact ⟨hs, rfl⟩
  | waited | halted => exact ⟨by simp, rfl⟩
  | put => exact ⟨by dsimp only; split <;> simp [hs], rfl⟩

/-- Settles O28: a step that leaves its VM `Faulted` raised a fault, since no effect does. -/
theorem faultsArePrecise : Obligations.FaultsArePrecise := by
  intro s t k hsilent ha ht hfault
  rw [step_of_active hsilent ha] at ht
  cases ht
  rw [State.commitVm_vm_self ha] at hfault ⊢
  refine ⟨State.onlyVm_commitVm _ _ _, ?_⟩
  rcases Vm.next_cases s.params (s.vm k) with ⟨e, he, hn⟩ | ⟨i, -, heff⟩
  · rw [hn]
    exact ⟨rfl, he.isVmFault⟩
  · exact absurd hfault (heff.no_fault (by simp [State.active_running ha])).1

end Sys2Proof.Machine

/-! ## A VM in order stays in order -/

namespace Sys2Proof.Machine

variable {p : Params} {vm vm' : Vm}

/-- An address within `MEM_CAP` is representable (rule R9). -/
theorem representable_of_le_memCap (hp : p.Legal) {a : Int} (h0 : 0 ≤ a) (h1 : a ≤ p.memCap) :
    p.width.Representable a := by
  obtain ⟨-, hcap, -⟩ := hp
  exact ⟨p.width.representable_zero.1.trans h0, h1.trans hcap⟩

/-- A VM that has not faulted is in order when its words and queues are, and its record is clear. -/
theorem Vm.ok_of_not_faulted (hmem : Memory.wf p vm.mem) (hip : p.width.Representable vm.ip)
    (hin : QueueOk p vm.inQ) (hout : QueueOk p vm.outQ) (herr : vm.err = ⟨.none, 0, 0⟩)
    (hs : vm.state ≠ .faulted) : vm.Ok p where
  mem := hmem
  ip := hip
  errAddress := by rw [herr]; exact p.width.representable_zero
  errWord := by rw [herr]; exact p.width.representable_zero
  inQ := hin
  outQ := hout
  noErr _ := herr
  hasErr h := absurd h hs

theorem queueOk_nil (p : Params) : QueueOk p [] :=
  ⟨fun _ _ => Nat.zero_le _, fun _ h => by cases h⟩

/-- The oldest value of a queue is a word, and taking it leaves a queue. -/
theorem queueOk_cons {v : Int} {q : List Int} (h : QueueOk p (v :: q)) :
    p.width.Representable v ∧ QueueOk p q := by
  obtain ⟨hlen, hrep⟩ := h
  exact ⟨hrep v (by simp), fun c hc => (Nat.le_succ _).trans (hlen c hc), fun x hx => hrep x (by simp [hx])⟩

theorem queueOk_push {v : Int} {q : List Int} (h : QueueOk p q) (hv : p.width.Representable v)
    (hfull : queueFull p.qCap q = false) : QueueOk p (push q v) := by
  refine ⟨fun c hc => push_length_le v ?_, fun x hx => ?_⟩
  · rwa [Option.mem_def.1 hc] at hfull
  · rcases List.mem_append.1 hx with hx | hx
    · exact h.2 x hx
    · rwa [List.mem_singleton.1 hx]

theorem Vm.absent_ok (p : Params) : Vm.absent.Ok p :=
  Vm.ok_of_not_faulted (Memory.wf_nil p) p.width.representable_zero (queueOk_nil p) (queueOk_nil p) rfl
    (by decide)

theorem Vm.construct_ok {prog : List Int} (h : Memory.wf p prog) : (Vm.construct prog).Ok p :=
  Vm.ok_of_not_faulted h p.width.representable_zero (queueOk_nil p) (queueOk_nil p) rfl
    (by simp [Vm.construct])

/-- Replacing an input queue keeps a VM in order. -/
theorem Vm.Ok.with_inQ (h : vm.Ok p) {q : List Int} (hq : QueueOk p q) : { vm with inQ := q }.Ok p :=
  { h with inQ := hq }

theorem Vm.Ok.with_outQ (h : vm.Ok p) {q : List Int} (hq : QueueOk p q) : { vm with outQ := q }.Ok p :=
  { h with outQ := hq }

/-- A `run()` call leads to `Faulted` from there only. -/
theorem Vm.call_faulted : vm.call.state = .faulted ↔ vm.state = .faulted := by
  rw [Vm.call_state]
  split
  · next h => rcases h with h | h | h <;> simp [h]
  · rfl

theorem Vm.Ok.call (h : vm.Ok p) : vm.call.Ok p := by
  rw [Vm.call_eq]
  exact { h with
    noErr := fun hs => h.noErr (mt Vm.call_faulted.2 hs)
    hasErr := fun hs => h.hasErr (Vm.call_faulted.1 hs) }

theorem Vm.StepFault.representable (hp : p.Legal) (h : vm.Ok p) {e : VmErr} (he : vm.StepFault e) :
    p.width.Representable e.address ∧ p.width.Representable e.word := by
  obtain ⟨hlen, hwords⟩ := h.mem
  cases he with
  | outOfBounds ha =>
    refine ⟨?_, p.width.representable_zero⟩
    rcases ha with rfl | rfl | ha
    · exact h.ip
    · exact representable_of_le_memCap hp (Int.natCast_nonneg _) (Int.ofNat_le.2 hlen)
    · exact hwords _ ha
  | invalidInstruction hw => exact ⟨h.ip, hwords _ hw⟩
  | overflow i | queueOverflow i => exact ⟨h.ip, p.width.representable_encodeWord i⟩

theorem Vm.Ok.raise (hp : p.Legal) (h : vm.Ok p) {e : VmErr} (he : vm.StepFault e) : (vm.raise e).Ok p :=
  { h with
    errAddress := (he.representable hp h).1
    errWord := (he.representable hp h).2
    noErr := fun hs => absurd rfl hs
    hasErr := fun _ => he.isVmFault }

/-- The effect of an instruction that lies in memory, on a VM in order. -/
theorem Vm.Effect.ok {i : Instr} (h : vm.Ok p) (hs : vm.state = .running)
    (hi : ∀ q ∈ i.params, p.width.Representable q) (hnext : p.width.Representable (vm.ip + i.length))
    (he : vm.Effect p i vm') : vm'.Ok p := by
  obtain ⟨hs', herr'⟩ := he.no_fault (by simp [hs])
  have herr : vm'.err = ⟨.none, 0, 0⟩ := herr'.trans (h.noErr (by simp [hs]))
  obtain ⟨-, hwords⟩ := h.mem
  cases he with
  | stored t r hr =>
    exact Vm.ok_of_not_faulted (Memory.wf_store _ _ _ _ h.mem hr) hnext h.inQ h.outQ herr hs'
  | waited | halted => exact Vm.ok_of_not_faulted h.mem h.ip h.inQ h.outQ herr hs'
  | took t v rest hq =>
    obtain ⟨hv, hrest⟩ := queueOk_cons (hq ▸ h.inQ)
    exact Vm.ok_of_not_faulted (Memory.wf_store _ _ _ _ h.mem hv) hnext hrest h.outQ herr hs'
  | put v hv hq =>
    have hrep : p.width.Representable v := hv.elim (hi v) (hwords v)
    exact Vm.ok_of_not_faulted h.mem hnext h.inQ (queueOk_push h.outQ hrep hq) herr hs'
  | jumped t ht =>
    have hrep : p.width.Representable t := by
      rcases ht with ht | ht | rfl
      · exact hi t ht
      · exact hwords t ht
      · exact hnext
    exact Vm.ok_of_not_faulted h.mem hrep h.inQ h.outQ herr hs'

/-- One step of a `Running` VM keeps it in order: `ip` advances at most to the end of memory. -/
theorem Vm.Ok.next (hp : p.Legal) (h : vm.Ok p) (hs : vm.state = .running) : (vm.next p).Ok p := by
  rcases Vm.next_cases p vm with ⟨e, he, hn⟩ | ⟨i, hf, he⟩
  · rw [hn]
    exact h.raise hp he
  · obtain ⟨h0, hend, hi⟩ := Vm.fetch_ok_inMemory hf
    obtain ⟨hlen, hwords⟩ := h.mem
    exact he.ok h hs (fun q hq => hwords q (hi q hq)) (representable_of_le_memCap hp (by omega) (by omega))

/-! ## What an allowed transaction satisfies -/

section Preconditions

variable {s : State}

/-- A transaction that is not refused is well typed. -/
theorem State.wellTyped_of_refusal_none {t : Txn} (h : s.refusal t = none) : t.wellTyped s.params = true := by
  unfold State.refusal at h
  split at h
  · cases h
  · next ht => simpa using ht

theorem State.refusal_load_none {seq : List Int} (h : s.refusal (.load seq) = none) :
    seq.length ≤ s.params.memCap ∧ AllRepresentable s.params.width seq := by
  have ht := State.wellTyped_of_refusal_none h
  simp only [Txn.wellTyped, List.all_eq_true, decide_eq_true_eq] at ht
  unfold State.refusal at h
  dsimp only at h
  split_ifs at h with _ _ hlen
  exact ⟨Nat.le_of_not_lt hlen, ht⟩

theorem State.refusal_configure_none {mode : BlkMode} {fb : Bool} {phase : List Int}
    (h : s.refusal (.configure mode fb phase) = none) :
    s.busy = false ∧ phase.length = s.params.n ∧ AllRepresentable s.params.width phase := by
  have ht := State.wellTyped_of_refusal_none h
  simp only [Txn.wellTyped, Bool.and_eq_true, List.all_eq_true, decide_eq_true_eq] at ht
  unfold State.refusal at h
  dsimp only at h
  split_ifs at h with _ hb
  exact ⟨by simpa using hb, ht⟩

theorem State.refusal_push_none {v : Int} (h : s.refusal (.push v) = none) :
    s.blkMode = .standalone ∧ (s.vm 0).state ≠ .running ∧ s.params.width.Representable v ∧
      queueFull s.params.qCap (s.vm 0).inQ = false := by
  have hv : s.params.width.Representable v := of_decide_eq_true (State.wellTyped_of_refusal_none h)
  rw [State.refusal_push hv, Option.or_eq_none_iff, State.standaloneRefusal_eq_none] at h
  obtain ⟨⟨hm, h0, -⟩, hq⟩ := h
  exact ⟨hm, h0, hv, by simpa using hq⟩

end Preconditions

/-! ## The invariant and the block's updates -/

theorem State.resetWith_inv (hp : p.Legal) : (State.resetWith p).Inv where
  params := hp
  phases := by simp [State.resetWith]
  vmCount := by simp [State.resetWith]
  turn := hp.1
  prog := Memory.wf_nil p
  phaseWords v hv := by rw [List.eq_of_mem_replicate hv]; exact p.width.representable_zero
  signal := p.width.representable_zero
  result := p.width.representable_zero
  netErrAddress := p.width.representable_zero
  netErrWord := p.width.representable_zero
  vmsOk v hv := by rw [List.eq_of_mem_replicate hv]; exact Vm.absent_ok p
  busyMode h := by cases h
  oneRunning i h := by rw [State.vm_resetWith] at h; cases h
  hostTyped t ht := by cases ht

/-- Settles O32: RESET's values one by one. -/
theorem resetMeetsInvariant : Obligations.ResetMeetsInvariant :=
  ⟨by decide, fun _ hp => State.resetWith_inv hp⟩

/-- No VM is `Running`. -/
def State.NoneRunning (s : State) : Prop := ∀ i, (s.vm i).state ≠ .running

theorem State.NoneRunning.setVm {s : State} (h : s.NoneRunning) {k : Nat} {v : Vm} (hv : v.state ≠ .running) :
    (s.setVm k v).NoneRunning := fun i => by
  rw [State.vm_setVm]
  split
  · exact hv
  · exact h i

theorem State.active_of_turnRun {s : State} (hn : s.netState = .turnRun)
    (hr : (s.vm s.turn).state = .running) : s.active = some s.turn := by
  simp [State.active, hn, hr]

theorem State.active_of_standalone {s : State} (hn : s.netState = .idle) (hm : s.blkMode = .standalone)
    (hr : (s.vm 0).state = .running) : s.active = some 0 := by
  simp [State.active, hn, hm, hr]

/-- The active VM, replaced by one still `Running`, stays the active one. -/
theorem State.active_setVm {s : State} {k : Nat} {v : Vm} (ha : s.active = some k) (hv : v.state = .running) :
    (s.setVm k v).active = some k := by
  have hself : (s.setVm k v).vm k = v := State.vm_setVm_self _ _ _ (State.active_lt ha)
  rcases State.active_cases ha with ⟨hn, rfl⟩ | ⟨hn, hm, rfl⟩
  · exact State.active_of_turnRun hn (by rw [State.setVm_turn, hself]; exact hv)
  · exact State.active_of_standalone hn hm (by rw [hself]; exact hv)

namespace State.Inv

variable {s : State}

theorem vm_ok (h : s.Inv) (i : Nat) : (s.vm i).Ok s.params := by
  by_cases hi : i < s.vms.length
  · have hmem : s.vm i ∈ s.vms := by simp [State.vm, hi]
    exact h.vmsOk _ hmem
  · rw [State.vm_of_length_le s i (by omega)]
    exact Vm.absent_ok s.params

theorem turn_lt (h : s.Inv) : s.turn < s.vms.length := h.vmCount ▸ h.turn

theorem zero_lt (h : s.Inv) : 0 < s.vms.length := by
  have := h.turn_lt
  omega

/-- Where no VM executes next, none is `Running`. -/
theorem noneRunning (h : s.Inv) (ha : s.active = none) : s.NoneRunning := fun i hi => by
  cases ha.symm.trans (h.oneRunning i hi)

theorem answer (h : s.Inv) (a : HostAnswer) : (s.answer a).Inv := { h with }

/-- Dropping moves of the host keeps the invariant. -/
theorem with_hostMoves (h : s.Inv) {moves : List HostMove} (hsub : moves ⊆ s.hostMoves) :
    { s with hostMoves := moves }.Inv :=
  { h with hostTyped := fun t ht => h.hostTyped t (hsub ht) }

/-- Replacing `VM[k]` by a VM in order, when no other VM is `Running` and it is `Running` only where it
is the one that steps next. -/
theorem setVm (h : s.Inv) {k : Nat} {v : Vm} (hk : k < s.vms.length) (hv : v.Ok s.params)
    (hothers : ∀ i, i ≠ k → (s.vm i).state ≠ .running)
    (hrun : v.state = .running → (s.setVm k v).active = some k) : (s.setVm k v).Inv :=
  { h with
    vmCount := by simpa using h.vmCount
    vmsOk := fun u hu => by
      rcases List.mem_or_eq_of_mem_set hu with hu | rfl
      · exact h.vmsOk u hu
      · exact hv
    oneRunning := fun i hi => by
      by_cases hik : i = k
      · subst hik
        rw [State.vm_setVm_self s i v hk] at hi
        exact hrun hi
      · rw [State.vm_setVm_of_ne s k i v hik] at hi
        exact absurd hi (hothers i hik) }

theorem setVm_of_noneRunning (h : s.Inv) {k : Nat} {v : Vm} (hk : k < s.vms.length) (hr : s.NoneRunning)
    (hv : v.Ok s.params) (hs : v.state ≠ .running) : (s.setVm k v).Inv :=
  h.setVm hk hv (fun i _ => hr i) fun hs' => absurd hs' hs

/-- Where no VM is `Running`, `net_state` may be written. -/
theorem with_netState (h : s.Inv) (hr : s.NoneRunning) {x : NetState}
    (hb : { s with netState := x }.netBusy = true → s.blkMode = .network) :
    { s with netState := x }.Inv :=
  { h with
    busyMode := hb
    oneRunning := fun i hi => absurd hi (hr i) }

theorem failNetwork (h : s.Inv) (hr : s.NoneRunning) {e : NetErr} (ha : s.params.width.Representable e.address)
    (hw : s.params.width.Representable e.word) : (s.failNetwork e).Inv :=
  { h with
    netErrAddress := ha
    netErrWord := hw
    busyMode := fun hb => by cases hb
    oneRunning := fun i hi => absurd hi (hr i) }

theorem nextTurn (h : s.Inv) (hr : s.NoneRunning) (hm : s.blkMode = .network) : s.nextTurn.Inv := by
  by_cases ht : s.turn + 1 < s.params.n
  · rw [State.nextTurn_of_lt ht]
    exact { h with turn := ht, busyMode := fun _ => hm, oneRunning := fun i hi => absurd hi (hr i) }
  · rw [State.nextTurn_of_not_lt ht]
    exact h.with_netState hr fun _ => hm

/-! ### The orchestrator's actions -/

/-- The call of the visited VM, the one VM that may run in `TURN_RUN`. -/
theorem enterRun (h : s.Inv) (hr : s.NoneRunning) (hm : s.blkMode = .network) {v : Vm} (hv : v.Ok s.params) :
    { s.setVm s.turn v with netState := .turnRun }.Inv :=
  (h.with_netState hr (x := .turnRun) fun _ => hm).setVm h.turn_lt hv (fun i _ => hr i) fun hs =>
    State.active_of_turnRun rfl ((congrArg Vm.state (State.vm_setVm_self s s.turn v h.turn_lt)).trans hs)

theorem send (h : s.Inv) (hr : s.NoneRunning) (hm : s.blkMode = .network) : s.send.Inv := by
  have hv := h.vm_ok s.turn
  unfold State.send
  dsimp only
  split_ifs with hfull hsig
  · exact h.failNetwork hr hv.ip s.params.width.representable_zero
  · have hq : queueFull s.params.qCap (s.vm s.turn).inQ = false := by simpa [hsig] using hfull
    exact h.enterRun hr hm (hv.with_inQ (queueOk_push hv.inQ h.signal hq)).call
  · exact h.enterRun hr hm hv.call

theorem collect (h : s.Inv) (hr : s.NoneRunning) (hm : s.blkMode = .network) : s.collect.Inv := by
  have hv := h.vm_ok s.turn
  unfold State.collect
  dsimp only
  split
  · exact h.failNetwork hr hv.errAddress hv.errWord
  split
  · next x rest hq =>
    obtain ⟨hx, hrest⟩ := queueOk_cons (hq ▸ hv.outQ)
    exact nextTurn { h.setVm_of_noneRunning h.turn_lt hr (hv.with_outQ hrest) (hr _) with signal := hx }
      (hr.setVm (hr _)) hm
  · split
    · exact nextTurn (s := { s with sigValid := false }) { h with } hr hm
    · exact h.failNetwork hr hv.ip s.params.width.representable_zero

theorem passEnd (h : s.Inv) (hr : s.NoneRunning) (hm : s.blkMode = .network) : s.passEnd.Inv := by
  unfold State.passEnd
  dsimp only
  split
  · exact { h with
      result := h.signal
      busyMode := fun hb => by cases hb
      oneRunning := fun i hi => absurd hi (hr i) }
  · exact { h with
      turn := h.params.1
      busyMode := fun _ => hm
      oneRunning := fun i hi => absurd hi (hr i) }

theorem orchestrate (h : s.Inv) (ha : s.active = none) : s.orchestrate.Inv := by
  have hr := h.noneRunning ha
  have hbusy : s.netBusy = true → s.blkMode = .network := h.busyMode
  unfold State.orchestrate
  cases hn : s.netState with
  | turnSend => exact h.send hr (hbusy (by simp [State.netBusy, hn]))
  | turnRun => exact h.with_netState hr fun _ => hbusy (by simp [State.netBusy, hn])
  | turnCollect => exact h.collect hr (hbusy (by simp [State.netBusy, hn]))
  | passEnd => exact h.passEnd hr (hbusy (by simp [State.netBusy, hn]))
  | idle | done | error => exact h

/-! ### A VM's step -/

theorem commitVm (h : s.Inv) {k : Nat} (ha : s.active = some k) {v : Vm} (hv : v.Ok s.params) :
    (s.commitVm k v).Inv := by
  have hk : k < s.vms.length := State.active_lt ha
  have hset : (s.setVm k v).Inv := h.setVm hk hv
    (fun i hik hi => hik (Option.some.inj ((h.oneRunning i hi).symm.trans ha)))
    (State.active_setVm ha)
  rcases s.commitVm_cases k v with hc | ⟨-, hc⟩
  · rwa [hc]
  · rw [hc]
    exact hset.answer _

theorem blockStep (h : s.Inv) {t : State} (ht : s.blockStep = .next t) : t.Inv := by
  rcases s.blockStep_cases with ⟨k, ha, hs⟩ | ⟨ha, hs⟩
  · cases hs.symm.trans ht
    exact h.commitVm ha ((h.vm_ok k).next h.params (State.active_running ha))
  · cases hs.symm.trans ht
    exact h.orchestrate ha

/-! ### The host's transactions -/

/-- In a block that is not busy no VM is `Running`. -/
theorem noneRunning_of_not_busy (h : s.Inv) (hb : s.busy = false) : s.NoneRunning :=
  h.noneRunning (State.active_of_not_busy hb)

/-- In standalone mode no network run is in progress, so `VM[0]` alone can be `Running`. -/
theorem noneRunning_of_standalone (h : s.Inv) (hm : s.blkMode = .standalone)
    (h0 : (s.vm 0).state ≠ .running) : s.NoneRunning := by
  have hnet : s.netBusy = false := by
    by_contra hb
    cases hm.symm.trans (h.busyMode (by simpa using hb))
  exact h.noneRunning_of_not_busy (by simp [State.busy, hnet, h0])

theorem doReset (h : s.Inv) : s.doReset.Inv :=
  { State.resetWith_inv h.params with hostTyped := h.hostTyped }

theorem load (h : s.Inv) {seq : List Int} (hr : s.refusal (.load seq) = none) : { s with prog := seq }.Inv := by
  obtain ⟨hlen, hwords⟩ := State.refusal_load_none hr
  exact { h with prog := ⟨hlen, hwords⟩ }

theorem configure (h : s.Inv) {mode : BlkMode} {fb : Bool} {phase : List Int}
    (hr : s.refusal (.configure mode fb phase) = none) :
    { s with blkMode := mode, feedback := fb, phase := phase }.Inv := by
  obtain ⟨hb, hlen, hwords⟩ := State.refusal_configure_none hr
  exact { h with
    phases := hlen
    phaseWords := hwords
    busyMode := fun hn => by cases hn.symm.trans (State.of_not_busy hb).1
    oneRunning := fun i hi => absurd hi (h.noneRunning_of_not_busy hb i) }

theorem phase_representable (h : s.Inv) (i : Nat) : s.params.width.Representable (s.phase.getD i 0) := by
  by_cases hi : i < s.phase.length
  · rw [List.getD_eq_getElem _ _ hi]
    exact h.phaseWords _ (List.getElem_mem hi)
  · rw [List.getD_eq_default _ _ (by omega)]
    exact s.params.width.representable_zero

/-- A fresh VM's input queue has room for its phase, since `Q_CAP ≥ 2` (rule R98). -/
theorem queueFull_nil (h : s.Inv) : queueFull s.params.qCap [] = false := by
  obtain ⟨-, -, hcap⟩ := h.params
  cases hq : s.params.qCap with
  | none => rfl
  | some c =>
    have : 2 ≤ c := hcap c hq
    simp only [queueFull, List.length_nil, decide_eq_false_iff_not]
    omega

theorem launch (h : s.Inv) (hm : s.blkMode = .network) : s.launch.Inv where
  params := h.params
  phases := h.phases
  vmCount := by simp [State.launch]
  turn := h.params.1
  prog := h.prog
  phaseWords := h.phaseWords
  signal := s.params.width.representable_zero
  result := s.params.width.representable_zero
  netErrAddress := s.params.width.representable_zero
  netErrWord := s.params.width.representable_zero
  vmsOk v hv := by
    obtain ⟨i, -, rfl⟩ := List.mem_map.1 hv
    exact (Vm.construct_ok h.prog).with_inQ
      (queueOk_push (queueOk_nil _) (h.phase_representable i) h.queueFull_nil)
  busyMode _ := hm
  oneRunning i hi := by
    rw [State.vm_launch] at hi
    split at hi <;> cases hi
  hostTyped := h.hostTyped

theorem startStandalone (h : s.Inv) : s.startStandalone.Inv :=
  { h with
    vmCount := by simp [State.startStandalone]
    vmsOk := fun v hv => by
      obtain ⟨i, -, rfl⟩ := List.mem_map.1 hv
      split
      · exact Vm.construct_ok h.prog
      · exact Vm.absent_ok s.params
    busyMode := fun hb => by cases hb
    oneRunning := fun i hi => by
      rw [State.vm_startStandalone] at hi
      split_ifs at hi <;> cases hi }

theorem doStart (h : s.Inv) : s.doStart.Inv := by
  unfold State.doStart
  split
  · next hm => exact h.launch hm
  · exact h.startStandalone
  · exact h

theorem push (h : s.Inv) {v : Int} (hr : s.refusal (.push v) = none) :
    (s.setVm 0 { s.vm 0 with inQ := Machine.push (s.vm 0).inQ v }).Inv := by
  obtain ⟨hm, h0, hv, hq⟩ := State.refusal_push_none hr
  exact h.setVm_of_noneRunning h.zero_lt (h.noneRunning_of_standalone hm h0)
    ((h.vm_ok 0).with_inQ (queueOk_push (h.vm_ok 0).inQ hv hq)) h0

theorem doRun (h : s.Inv) (hr : s.refusal .run = none) : s.doRun.Inv := by
  obtain ⟨hm, h0, hidle⟩ := State.standaloneRefusal_eq_none.1 (Option.or_eq_none_iff.1 hr).1
  have hnone := h.noneRunning_of_standalone hm h0
  unfold State.doRun
  dsimp only
  split
  · next hcall =>
    have hn : s.netState = .idle := hidle (decide_eq_true hcall)
    exact h.setVm h.zero_lt (h.vm_ok 0).call (fun i _ => hnone i) fun _ =>
      State.active_of_standalone hn hm (by rw [State.vm_setVm_self _ _ _ h.zero_lt]; exact hcall)
  · exact h.answer _

theorem doPop (h : s.Inv) (hr : s.refusal .pop = none) : s.doPop.Inv := by
  obtain ⟨hm, h0, -⟩ := State.standaloneRefusal_eq_none.1 hr
  unfold State.doPop
  split
  · next x rest hq =>
    obtain ⟨-, hrest⟩ := queueOk_cons (hq ▸ (h.vm_ok 0).outQ)
    exact (h.setVm_of_noneRunning h.zero_lt (h.noneRunning_of_standalone hm h0)
      ((h.vm_ok 0).with_outQ hrest) h0).answer _
  · exact h.answer _

theorem perform (h : s.Inv) {t : Txn} (hr : s.refusal t = none) : (s.perform t).Inv := by
  cases t with
  | reset => exact h.doReset.answer _
  | load => exact (h.load hr).answer _
  | configure => exact (h.configure hr).answer _
  | start => exact h.doStart.answer _
  | push => exact (h.push hr).answer _
  | run => exact h.doRun hr
  | pop => exact h.doPop hr
  | memread => exact h.answer _
  | status index =>
    unfold State.perform
    dsimp only
    split <;> exact h.answer _

theorem transact (h : s.Inv) (t : Txn) : (s.transact t).Inv := by
  unfold State.transact
  split
  · exact h.answer _
  · next hr => exact h.perform hr

end State.Inv

/-- Settles O31: the host's next move is taken off the list, and the transaction or block step it allows
keeps the invariant. -/
theorem stepKeepsInvariant : Obligations.StepKeepsInvariant := by
  intro s t h ht
  unfold step at ht
  split at ht
  · next tx rest hm =>
    cases ht
    exact (h.with_hostMoves (hm ▸ List.subset_cons_self _ _)).transact tx
  · next rest hm => exact (h.with_hostMoves (hm ▸ List.subset_cons_self _ _)).blockStep ht
  · exact h.blockStep ht

end Sys2Proof.Machine

/-! # Proofs of the state family (`10_state.md`)

What a stored result leaves of its VM; what each kind of step can do to a VM and to the configuration; START,
RESET and the status fields; and the search, whose runs depend on the program alone. -/

/-! ## What ADD, MUL, LT and EQ leave unchanged -/

namespace Sys2Proof.Machine

/-- What an instruction of the shape of ADD, MUL, LT and EQ makes of its VM. -/
theorem Vm.settle_storeResult_cases (vm : Vm) (m0 m1 : Mode) (p0 p1 p2 : Int)
    (f : Int → Int → Except VmErr Int) :
    (∃ e, vm.settle (storeResultEffect m0 m1 p0 p1 p2 f vm) = vm.raise e) ∨
    (vm.mem.InBounds p2 ∧
      ∃ r, vm.settle (storeResultEffect m0 m1 p0 p1 p2 f vm) = vm.storeAndAdvance p2 r 4) := by
  cases h : storeResultEffect m0 m1 p0 p1 p2 f vm with
  | error e => exact .inl ⟨e, rfl⟩
  | ok vm' =>
    obtain ⟨a, b, t, r, -, -, ht, -, rfl⟩ := (storeResultEffect_ok vm m0 m1 p0 p1 p2).1 h
    obtain ⟨rfl, hb⟩ := target_ok vm.mem p2 ht
    exact .inr ⟨hb, r, rfl⟩

/-- What such an instruction leaves of its VM: the queues, the memory but the target word, and without a
fault the lifecycle state and the record. -/
structure Vm.StoreFrame (p2 : Int) (vm vm' : Vm) : Prop where
  inQ : vm'.inQ = vm.inQ
  outQ : vm'.outQ = vm.outQ
  length : vm'.mem.length = vm.mem.length
  read : ∀ x, target vm.mem p2 ≠ .ok x → vm'.mem.read x = vm.mem.read x
  noFault : vm'.state ≠ .faulted → vm'.state = vm.state ∧ vm'.err = vm.err

theorem Vm.storeFrame_settle (vm : Vm) (m0 m1 : Mode) (p0 p1 p2 : Int)
    (f : Int → Int → Except VmErr Int) :
    vm.StoreFrame p2 (vm.settle (storeResultEffect m0 m1 p0 p1 p2 f vm)) := by
  rcases vm.settle_storeResult_cases m0 m1 p0 p1 p2 f with ⟨e, h⟩ | ⟨hb, r, h⟩ <;> rw [h]
  · exact ⟨rfl, rfl, rfl, fun _ _ => rfl, fun hs => absurd rfl hs⟩
  · refine ⟨rfl, rfl, Memory.store_length _ _ _, fun x hx => ?_, fun _ => ⟨rfl, rfl⟩⟩
    have hne : x ≠ p2 := fun hxp => hx (hxp ▸ target_of_inBounds vm.mem p2 hb)
    exact Memory.read_store_of_ne vm.mem p2 x r hb.1 hne

/-- Settles O20: each of the four is a stored result, whose frame is proved once for the shape. -/
theorem arithmeticFrame : Obligations.ArithmeticFrame := by
  intro s t k m0 m1 m2 p0 p1 p2 i ha hi ht
  obtain ⟨honly, hvm⟩ := exec_next ha ht
  obtain ⟨f, hf⟩ : ∃ f, effectOf i s.params (s.vm k) = storeResultEffect m0 m1 p0 p1 p2 f (s.vm k) := by
    rcases hi with rfl | rfl | rfl | rfl
    · exact ⟨_, effectOf_add ..⟩
    · exact ⟨_, effectOf_mul ..⟩
    · exact ⟨_, effectOf_lt ..⟩
    · exact ⟨_, effectOf_eq ..⟩
  have hframe : (s.vm k).StoreFrame p2 (t.vm k) := by
    rw [hvm, hf]
    exact Vm.storeFrame_settle _ _ _ _ _ _ _
  exact ⟨honly, hframe.inQ, hframe.outQ, hframe.length, hframe.read, hframe.noFault⟩

end Sys2Proof.Machine

/-! ## What a step does to each VM -/

namespace Sys2Proof.Machine

/-- What an action of the orchestrator, or a transaction that neither destroys nor constructs, makes of a
VM: it may be called, and its queues may change. -/
structure Vm.Visited (a b : Vm) : Prop where
  mem : b.mem = a.mem
  ip : b.ip = a.ip
  err : b.err = a.err
  state : b.state = a.state ∨ b.state = a.call.state

theorem Vm.Visited.refl (a : Vm) : a.Visited a := ⟨rfl, rfl, rfl, .inl rfl⟩

theorem Vm.Visited.with_inQ (a : Vm) (q : List Int) : a.Visited { a with inQ := q } :=
  ⟨rfl, rfl, rfl, .inl rfl⟩

theorem Vm.Visited.with_outQ (a : Vm) (q : List Int) : a.Visited { a with outQ := q } :=
  ⟨rfl, rfl, rfl, .inl rfl⟩

/-- What `run()` makes of the lifecycle state depends on nothing else. -/
theorem Vm.call_state_congr {a b : Vm} (h : a.state = b.state) : a.call.state = b.call.state := by
  rw [Vm.call_state, Vm.call_state, h]

theorem Vm.Visited.call (a : Vm) : a.Visited a.call :=
  ⟨a.call_mem, a.call_ip, a.call_err, .inr rfl⟩

theorem Vm.Visited.call_with_inQ (a : Vm) (q : List Int) : a.Visited { a with inQ := q }.call :=
  ⟨Vm.call_mem _, Vm.call_ip _, Vm.call_err _, .inr (Vm.call_state_congr rfl)⟩

variable {s t : State}

/-! ### The four outcomes of a collect (rule R101) -/

theorem State.collect_of_faulted (h : (s.vm s.turn).state = .faulted) :
    s.collect = s.failNetwork
      ⟨(s.vm s.turn).err.kind, (s.vm s.turn).err.address, (s.vm s.turn).err.word, s.turn⟩ :=
  if_pos h

theorem State.collect_of_output (h : (s.vm s.turn).state ≠ .faulted) {x : Int} {rest : List Int}
    (hq : (s.vm s.turn).outQ = x :: rest) :
    s.collect =
      { s.setVm s.turn { s.vm s.turn with outQ := rest } with signal := x, sigValid := true }.nextTurn := by
  unfold State.collect
  simp only [if_neg h, hq]

theorem State.collect_of_drained (h : (s.vm s.turn).state = .halted) (hq : (s.vm s.turn).outQ = []) :
    s.collect = { s with sigValid := false }.nextTurn := by
  unfold State.collect
  simp [h, hq]

theorem State.collect_of_starved (h : (s.vm s.turn).state ≠ .faulted) (h' : (s.vm s.turn).state ≠ .halted)
    (hq : (s.vm s.turn).outQ = []) :
    s.collect = s.failNetwork ⟨.inputStarved, (s.vm s.turn).ip, 0, s.turn⟩ := by
  unfold State.collect
  simp [h, h', hq]

theorem State.collect_cases (s : State) :
    ((s.vm s.turn).state = .faulted ∧ s.collect = s.failNetwork
      ⟨(s.vm s.turn).err.kind, (s.vm s.turn).err.address, (s.vm s.turn).err.word, s.turn⟩) ∨
    ((s.vm s.turn).state ≠ .faulted ∧ ∃ x rest, (s.vm s.turn).outQ = x :: rest ∧ s.collect =
      { s.setVm s.turn { s.vm s.turn with outQ := rest } with signal := x, sigValid := true }.nextTurn) ∨
    ((s.vm s.turn).state = .halted ∧ (s.vm s.turn).outQ = [] ∧
      s.collect = { s with sigValid := false }.nextTurn) ∨
    ((s.vm s.turn).state ≠ .faulted ∧ (s.vm s.turn).state ≠ .halted ∧ (s.vm s.turn).outQ = [] ∧
      s.collect = s.failNetwork ⟨.inputStarved, (s.vm s.turn).ip, 0, s.turn⟩) := by
  by_cases hf : (s.vm s.turn).state = .faulted
  · exact .inl ⟨hf, State.collect_of_faulted hf⟩
  cases hq : (s.vm s.turn).outQ with
  | cons x rest => exact .inr (.inl ⟨hf, x, rest, rfl, State.collect_of_output hf hq⟩)
  | nil =>
    by_cases hh : (s.vm s.turn).state = .halted
    · exact .inr (.inr (.inl ⟨hh, rfl, State.collect_of_drained hh hq⟩))
    · exact .inr (.inr (.inr ⟨hf, hh, rfl, State.collect_of_starved hf hh hq⟩))

/-! ### Visits -/

theorem State.visited_setVm {k : Nat} {v : Vm} (h : (s.vm k).Visited v) (i : Nat) :
    (s.vm i).Visited ((s.setVm k v).vm i) := by
  rw [State.vm_setVm]
  split
  · next hik => rw [hik.1]; exact h
  · exact .refl _

theorem State.visited_send (i : Nat) : (s.vm i).Visited (s.send.vm i) := by
  unfold State.send
  dsimp only
  split_ifs
  · exact .refl _
  · rw [State.vm_with_netState]
    exact State.visited_setVm (.call_with_inQ _ _) i
  · rw [State.vm_with_netState]
    exact State.visited_setVm (.call _) i

theorem State.visited_collect (i : Nat) : (s.vm i).Visited (s.collect.vm i) := by
  rcases s.collect_cases with ⟨-, h⟩ | ⟨-, x, rest, -, h⟩ | ⟨-, -, h⟩ | ⟨-, -, -, h⟩ <;> rw [h]
  · exact .refl _
  · rw [State.nextTurn_vm]
    exact State.visited_setVm (.with_outQ _ _) i
  · rw [State.nextTurn_vm]
    exact .refl _
  · exact .refl _

@[simp] theorem State.passEnd_vm (i : Nat) : s.passEnd.vm i = s.vm i := by
  unfold State.passEnd
  split <;> rfl

theorem State.visited_orchestrate (i : Nat) : (s.vm i).Visited (s.orchestrate.vm i) := by
  unfold State.orchestrate
  cases s.netState with
  | turnSend => exact State.visited_send i
  | turnCollect => exact State.visited_collect i
  | passEnd => rw [State.passEnd_vm]; exact .refl _
  | turnRun | idle | done | error => exact .refl _

/-- Every transaction but RESET and START visits VMs at most. -/
theorem State.visited_perform {tx : Txn} (hreset : tx ≠ .reset) (hstart : tx ≠ .start) (i : Nat) :
    (s.vm i).Visited ((s.perform tx).vm i) := by
  cases tx with
  | reset => exact absurd rfl hreset
  | start => exact absurd rfl hstart
  | load | configure | memread => exact .refl _
  | push v => exact State.visited_setVm (.with_inQ _ _) i
  | run =>
    unfold State.perform State.doRun
    dsimp only
    split
    · exact State.visited_setVm (.call _) i
    · exact .refl _
  | pop =>
    unfold State.perform State.doPop
    dsimp only
    split
    · exact State.visited_setVm (.with_outQ _ _) i
    · exact .refl _
  | status index =>
    unfold State.perform
    dsimp only
    split <;> exact .refl _

/-- A transaction is refused with no change but the answer, or performed. -/
theorem State.transact_cases (s : State) (tx : Txn) :
    (∃ r, s.transact tx = s.answer (.refused r)) ∨ s.transact tx = s.perform tx := by
  unfold State.transact
  split
  · exact .inl ⟨_, rfl⟩
  · exact .inr rfl

theorem State.visited_transact {tx : Txn} (hreset : tx ≠ .reset) (hstart : tx ≠ .start) (i : Nat) :
    (s.vm i).Visited ((s.transact tx).vm i) := by
  rcases s.transact_cases tx with ⟨r, h⟩ | h <;> rw [h]
  · exact .refl _
  · exact State.visited_perform hreset hstart i

/-- What a block step makes of each VM: one step of the active VM, at most a visit of the others. -/
theorem State.blockStep_vm (ht : s.blockStep = .next t) (i : Nat) :
    (s.active = some i ∧ t.vm i = (s.vm i).next s.params) ∨ (s.active ≠ some i ∧ (s.vm i).Visited (t.vm i)) := by
  rcases s.blockStep_cases with ⟨k, ha, hs⟩ | ⟨ha, hs⟩ <;> cases hs.symm.trans ht
  · by_cases hik : i = k
    · subst hik
      exact .inl ⟨ha, State.commitVm_vm_self ha _⟩
    · refine .inr ⟨by simp [ha, Ne.symm hik], ?_⟩
      rw [State.commitVm_vm, State.vm_setVm_of_ne _ _ _ _ hik]
      exact .refl _
  · exact .inr ⟨by simp [ha], State.visited_orchestrate i⟩

/-- A step performs the host's next transaction, or is a block step, whatever moves then wait. -/
theorem step_cases (ht : step s = .next t) :
    (∃ tx rest, s.hostMoves = .transaction tx :: rest ∧ t = { s with hostMoves := rest }.transact tx) ∨
    ∃ moves, { s with hostMoves := moves }.blockStep = .next t := by
  unfold step at ht
  split at ht
  · next tx rest hm => cases ht; exact .inl ⟨tx, rest, hm, rfl⟩
  · next rest hm => exact .inr ⟨rest, ht⟩
  · exact .inr ⟨s.hostMoves, ht⟩

/-! ### Memory -/

theorem Vm.Effect.mem_length {p : Params} {i : Instr} {vm vm' : Vm} (h : vm.Effect p i vm') :
    vm'.mem.length = vm.mem.length := by
  cases h with
  | stored | took => exact Memory.store_length _ _ _
  | waited | put | jumped | halted => rfl

/-- No step of a VM changes the length of its memory. -/
theorem Vm.next_mem_length (p : Params) (vm : Vm) : (vm.next p).mem.length = vm.mem.length := by
  rcases Vm.next_cases p vm with ⟨e, -, hn⟩ | ⟨i, -, he⟩
  · rw [hn, Vm.raise_mem]
  · exact he.mem_length

/-- Settles O35: the active VM's step keeps the length, and a visit keeps memory and `ip`. -/
theorem memoryBelongsToItsVm : Obligations.MemoryBelongsToItsVm := by
  intro s t i hsilent ht
  rw [step_of_hostSilent hsilent] at ht
  rcases State.blockStep_vm ht i with ⟨ha, hn⟩ | ⟨-, hv⟩
  · exact ⟨by rw [hn, Vm.next_mem_length], fun hna => absurd ha hna⟩
  · exact ⟨by rw [hv.mem], fun _ => ⟨hv.mem, hv.ip⟩⟩

/-! ### Lifecycle states -/

/-- No move, or a legal one that neither destroys nor constructs the VM (rule R27). -/
def VmState.StaysOrMoves (a b : VmState) : Prop :=
  b = a ∨ (a.mayBecome b = true ∧ b ≠ .absent ∧ b ≠ .ready)

theorem Vm.call_staysOrMoves (v : Vm) : v.state.StaysOrMoves v.call.state := by
  by_cases hr : v.state = .ready ∨ v.state = .awaitingInput ∨ v.state = .yielded
  · rw [Vm.call_state, if_pos hr]
    refine .inr ⟨?_, by decide, by decide⟩
    rcases hr with h | h | h <;> rw [h] <;> rfl
  · rw [Vm.call_state, if_neg hr]
    exact .inl rfl

theorem Vm.Visited.staysOrMoves {a b : Vm} (h : a.Visited b) : a.state.StaysOrMoves b.state := by
  rcases h.state with hb | hb <;> rw [hb]
  · exact .inl rfl
  · exact a.call_staysOrMoves

theorem Vm.Effect.staysOrMoves {p : Params} {i : Instr} {vm vm' : Vm} (h : vm.Effect p i vm')
    (hs : vm.state = .running) : vm.state.StaysOrMoves vm'.state := by
  cases h with
  | stored | took | jumped => exact .inl rfl
  | waited | halted => exact .inr (by simp [hs, VmState.mayBecome])
  | put =>
    dsimp only
    split
    · exact .inr (by simp [hs, VmState.mayBecome])
    · exact .inl rfl

/-- A step leaves a `Running` VM `Running`, or takes it to one of the four states of rule R27. -/
theorem Vm.next_staysOrMoves (p : Params) {vm : Vm} (hs : vm.state = .running) :
    vm.state.StaysOrMoves (vm.next p).state := by
  rcases Vm.next_cases p vm with ⟨e, -, hn⟩ | ⟨i, -, he⟩
  · rw [hn]
    exact .inr (by simp [hs, VmState.mayBecome])
  · exact he.staysOrMoves hs

theorem State.blockStep_staysOrMoves (ht : s.blockStep = .next t) (i : Nat) :
    (s.vm i).state.StaysOrMoves (t.vm i).state := by
  rcases State.blockStep_vm ht i with ⟨ha, hn⟩ | ⟨-, hv⟩
  · rw [hn]
    exact Vm.next_staysOrMoves _ (State.active_running ha)
  · exact hv.staysOrMoves

/-- What a START that is not refused makes of each VM: one constructed or destroyed, unless the block has
no mode. -/
theorem State.vm_doStart (i : Nat) :
    s.doStart.vm i = s.vm i ∨ (s.doStart.vm i).state = .absent ∨ (s.doStart.vm i).state = .ready := by
  unfold State.doStart
  split
  · rw [State.vm_launch]
    split
    · exact .inr (.inr rfl)
    · exact .inr (.inl rfl)
  · rw [State.vm_startStandalone]
    split_ifs
    · exact .inr (.inr rfl)
    · exact .inr (.inl rfl)
    · exact .inr (.inl rfl)
  · exact .inl rfl

/-- What a transaction makes of a lifecycle state: RESET destroys, START destroys and constructs, and the
others stay or move. -/
theorem State.transact_state (s : State) (tx : Txn) (i : Nat) :
    (tx = .reset ∧ ((s.transact tx).vm i).state = .absent) ∨
    (tx = .start ∧ (((s.transact tx).vm i).state = .absent ∨ ((s.transact tx).vm i).state = .ready)) ∨
    (s.vm i).state.StaysOrMoves ((s.transact tx).vm i).state := by
  by_cases hreset : tx = .reset
  · subst hreset
    exact .inl ⟨rfl, congrArg Vm.state (State.vm_resetWith i s.params)⟩
  by_cases hstart : tx = .start
  · subst hstart
    rcases s.transact_cases .start with ⟨r, h⟩ | h <;> rw [h]
    · exact .inr (.inr (.inl rfl))
    · rcases State.vm_doStart (s := s) i with hv | hv
      · exact .inr (.inr (.inl (congrArg Vm.state hv)))
      · exact .inr (.inl ⟨rfl, hv⟩)
  · exact .inr (.inr (State.visited_transact hreset hstart i).staysOrMoves)

/-- Settles O33: a block step stays or moves, and of the transactions only RESET and START do more. -/
theorem lifecycleMovesAreLegal : Obligations.LifecycleMovesAreLegal := by
  intro s t i ht
  rcases step_cases ht with ⟨tx, rest, hm, rfl⟩ | ⟨moves, hs⟩
  · rcases State.transact_state { s with hostMoves := rest } tx i with ⟨rfl, h⟩ | ⟨rfl, h⟩ | h
    · exact .inr (.inl ⟨⟨rest, hm⟩, h⟩)
    · exact .inr (.inr (.inl ⟨⟨rest, hm⟩, h⟩))
    · exact h.imp_right fun hmove => .inr (.inr hmove)
  · exact (State.blockStep_staysOrMoves hs i).imp_right fun hmove => .inr (.inr hmove)

end Sys2Proof.Machine

/-! ## The parameters and the program image -/

namespace Sys2Proof.Machine

variable {s t : State}

/-- What a network run rests on, besides its phases. -/
structure State.SameProgram (s t : State) : Prop where
  params : t.params = s.params
  blkMode : t.blkMode = s.blkMode
  prog : t.prog = s.prog

theorem State.SameProgram.refl (s : State) : s.SameProgram s := ⟨rfl, rfl, rfl⟩

theorem State.SameProgram.trans {u : State} (h : s.SameProgram t) (h' : t.SameProgram u) : s.SameProgram u :=
  ⟨h'.params.trans h.params, h'.blkMode.trans h.blkMode, h'.prog.trans h.prog⟩

@[simp] theorem State.nextTurn_blkMode : s.nextTurn.blkMode = s.blkMode := by rw [State.nextTurn_eq]

theorem State.SameProgram.nextTurn (h : s.SameProgram t) : s.SameProgram t.nextTurn :=
  ⟨by simp [h.params], by simp [h.blkMode], by simp [h.prog]⟩

theorem State.sameProgram_send (s : State) : s.SameProgram s.send := by
  unfold State.send
  dsimp only
  split_ifs <;> exact ⟨rfl, rfl, rfl⟩

theorem State.sameProgram_collect (s : State) : s.SameProgram s.collect := by
  rcases s.collect_cases with ⟨-, h⟩ | ⟨-, x, rest, -, h⟩ | ⟨-, -, h⟩ | ⟨-, -, -, h⟩ <;> rw [h]
  · exact ⟨rfl, rfl, rfl⟩
  · exact .nextTurn ⟨rfl, rfl, rfl⟩
  · exact .nextTurn ⟨rfl, rfl, rfl⟩
  · exact ⟨rfl, rfl, rfl⟩

theorem State.sameProgram_passEnd (s : State) : s.SameProgram s.passEnd := by
  unfold State.passEnd
  dsimp only
  split <;> exact ⟨rfl, rfl, rfl⟩

theorem State.sameProgram_orchestrate (s : State) : s.SameProgram s.orchestrate := by
  unfold State.orchestrate
  cases s.netState with
  | turnSend => exact s.sameProgram_send
  | turnCollect => exact s.sameProgram_collect
  | passEnd => exact s.sameProgram_passEnd
  | turnRun | idle | done | error => exact ⟨rfl, rfl, rfl⟩

/-- A block step keeps the parameters, the mode and the program image. -/
theorem State.sameProgram_blockStep (ht : s.blockStep = .next t) : s.SameProgram t := by
  rcases s.blockStep_cases with ⟨k, -, hs⟩ | ⟨-, hs⟩ <;> cases hs.symm.trans ht
  · have hblock := (s.onlyVm_commitVm k ((s.vm k).next s.params)).block
    exact ⟨hblock.params, hblock.blkMode, hblock.prog⟩
  · exact s.sameProgram_orchestrate

theorem State.sameProgram_doStart (s : State) : s.SameProgram s.doStart := by
  unfold State.doStart
  split <;> exact ⟨rfl, rfl, rfl⟩

theorem State.sameProgram_doRun (s : State) : s.SameProgram s.doRun := by
  unfold State.doRun
  dsimp only
  split <;> exact ⟨rfl, rfl, rfl⟩

theorem State.sameProgram_doPop (s : State) : s.SameProgram s.doPop := by
  unfold State.doPop
  split <;> exact ⟨rfl, rfl, rfl⟩

/-- What a transaction may make of the program image. -/
def State.ProgramAfter (s : State) (tx : Txn) (image : List Int) : Prop :=
  image = s.prog ∨ tx = .load image ∨ (tx = .reset ∧ image = [])

theorem State.SameProgram.programAfter (h : s.SameProgram t) (tx : Txn) :
    t.params = s.params ∧ s.ProgramAfter tx t.prog :=
  ⟨h.params, .inl h.prog⟩

theorem State.perform_programAfter (s : State) (tx : Txn) :
    (s.perform tx).params = s.params ∧ s.ProgramAfter tx (s.perform tx).prog := by
  cases tx with
  | reset => exact ⟨rfl, .inr (.inr ⟨rfl, rfl⟩)⟩
  | load seq => exact ⟨rfl, .inr (.inl rfl)⟩
  | configure | push | memread => exact ⟨rfl, .inl rfl⟩
  | start => exact s.sameProgram_doStart.programAfter _
  | run => exact s.sameProgram_doRun.programAfter _
  | pop => exact s.sameProgram_doPop.programAfter _
  | status index =>
    unfold State.perform
    dsimp only
    split <;> exact ⟨rfl, .inl rfl⟩

theorem State.transact_programAfter (s : State) (tx : Txn) :
    (s.transact tx).params = s.params ∧ s.ProgramAfter tx (s.transact tx).prog := by
  rcases s.transact_cases tx with ⟨r, h⟩ | h <;> rw [h]
  · exact ⟨rfl, .inl rfl⟩
  · exact s.perform_programAfter tx

/-- Settles O36: LOAD and RESET are the two transactions that write the image, and no block step does. -/
theorem onlyLoadWritesProgram : Obligations.OnlyLoadWritesProgram := by
  intro s t ht
  rcases step_cases ht with ⟨tx, rest, hm, rfl⟩ | ⟨moves, hs⟩
  · obtain ⟨hparams, hprog⟩ := State.transact_programAfter { s with hostMoves := rest } tx
    rcases hprog with h | h | ⟨h, hempty⟩
    · exact ⟨hparams, .inl h⟩
    · exact ⟨hparams, .inr (.inl ⟨_, rest, h ▸ hm, rfl⟩)⟩
    · exact ⟨hparams, .inr (.inr ⟨rest, h ▸ hm, hempty⟩)⟩
  · have hsame := State.sameProgram_blockStep hs
    exact ⟨hsame.params, .inl hsame.prog⟩

end Sys2Proof.Machine

/-! ## RESET and START -/

namespace Sys2Proof.Machine

variable {s : State}

/-- Settles O47: RESET has no precondition, and its effect names every field. -/
theorem resetSetsEveryField : Obligations.ResetSetsEveryField := by
  intro s rest hm
  rw [step_of_transaction hm, transact_of_allowed rfl]
  rfl

/-- What START's precondition comes to in a block that is not busy: a mode (rule R116). -/
theorem State.refusal_start_of_not_busy (hb : s.busy = false) :
    s.refusal .start = if s.blkMode = .none then some .notConfigured else none := by
  unfold State.refusal
  simp [Txn.wellTyped, hb]

/-- START in a block that is not busy and has a mode is performed. -/
theorem step_start {rest : List HostMove} (hm : s.hostMoves = .transaction .start :: rest)
    (hb : s.busy = false) (hmode : s.blkMode ≠ .none) :
    step s = .next ({ s with hostMoves := rest }.doStart.answer .ok) := by
  have hnone : { s with hostMoves := rest }.refusal .start = none := by
    rw [State.refusal_with_hostMoves, State.refusal_start_of_not_busy hb, if_neg hmode]
  rw [step_of_transaction hm, transact_of_allowed hnone]
  rfl

theorem State.doStart_network (h : s.blkMode = .network) : s.doStart = s.launch := by
  unfold State.doStart
  rw [h]

theorem State.doStart_standalone (h : s.blkMode = .standalone) : s.doStart = s.startStandalone := by
  unfold State.doStart
  rw [h]

/-- Settles O39: START in network mode is the launch. -/
theorem startLaunchesNetwork : Obligations.StartLaunchesNetwork := by
  intro s rest hm hmode hb
  have hstep := step_start hm hb (by simp [hmode])
  rw [State.doStart_network (s := { s with hostMoves := rest }) hmode] at hstep
  refine ⟨_, hstep, rfl, rfl, by simp [State.launch], fun i hi => ?_,
    rfl, rfl, rfl, rfl, rfl, rfl, rfl, rfl, rfl, rfl, rfl, rfl⟩
  rw [State.answer_vm, State.vm_launch, if_pos hi]
  rfl

/-- Settles O51: START in standalone mode constructs `VM[0]`, and without a mode fails its precondition. -/
theorem startBuildsStandaloneVm : Obligations.StartBuildsStandaloneVm := by
  intro s rest hm hb
  refine ⟨fun hmode => ?_, fun hmode => ?_⟩
  · have hstep := step_start hm hb (by simp [hmode])
    rw [State.doStart_standalone (s := { s with hostMoves := rest }) hmode] at hstep
    refine ⟨_, hstep, rfl, rfl, by simp [State.startStandalone], fun hn => ?_, fun i hi => ?_, rfl, hmode⟩
    · rw [State.answer_vm, State.vm_startStandalone, if_pos (show 0 < s.params.n from hn), if_pos rfl]
      rfl
    · rw [State.answer_vm, State.vm_startStandalone, if_neg (show i ≠ 0 by omega), ite_self]
      rfl
  · have hrefused : { s with hostMoves := rest }.refusal .start = some .notConfigured := by
      rw [State.refusal_with_hostMoves, State.refusal_start_of_not_busy hb, if_pos hmode]
    rw [step_of_transaction hm]
    unfold State.transact
    rw [hrefused]
    rfl

end Sys2Proof.Machine

/-! ## The status fields -/

namespace Sys2Proof.Machine

variable {s : State} {index : Nat}

theorem State.blockField_of_ge (h : 14 ≤ index) : s.blockField index = none := by
  obtain ⟨k, rfl⟩ := Nat.exists_eq_add_of_le' h
  rfl

theorem State.phaseField_eq_none (h : index < 32 ∨ 32 + s.params.n ≤ index) : s.phaseField index = none :=
  if_neg (by omega)

theorem State.vmField_eq_none (h : index < 64 ∨ 64 + 8 * s.params.n ≤ index) : s.vmField index = none :=
  if_neg (by omega)

theorem State.vmField_at {i j : Nat} (hi : i < s.params.n) (hj : j < 8) :
    s.vmField (64 + 8 * i + j) = (s.vm i).field j := by
  have hdiv : (64 + 8 * i + j - 64) / 8 = i := by omega
  have hmod : (64 + 8 * i + j - 64) % 8 = j := by omega
  unfold State.vmField
  rw [hdiv, hmod, if_pos ⟨by omega, hi⟩]

/-- From 14 on, below the VM fields, an index names a phase or nothing. -/
theorem State.statusField_of_lt (h : 14 ≤ index) (h' : index < 64) :
    s.statusField index = s.phaseField index := by
  unfold State.statusField
  rw [State.blockField_of_ge h, State.vmField_eq_none (.inl h')]
  cases s.phaseField index <;> rfl

/-- Above the phases an index names a VM field or nothing. -/
theorem State.statusField_of_ge (h : 14 ≤ index) (h' : 32 + s.params.n ≤ index) :
    s.statusField index = s.vmField index := by
  unfold State.statusField
  rw [State.blockField_of_ge h, State.phaseField_eq_none (.inr h')]

/-- With at most 32 VMs the fields of a VM stand at their own indices. -/
theorem State.statusField_vm (hn : s.params.n ≤ 32) {i j : Nat} (hi : i < s.params.n) (hj : j < 8) :
    s.statusField (64 + 8 * i + j) = (s.vm i).field j := by
  rw [State.statusField_of_ge (by omega) (by omega), State.vmField_at hi hj]

theorem State.statusField_phase (hn : s.params.n ≤ 32) {i : Nat} (hi : i < s.params.n) :
    s.statusField (32 + i) = some (.word (s.phase.getD i 0)) := by
  rw [State.statusField_of_lt (by omega) (by omega)]
  unfold State.phaseField
  rw [if_pos (by omega), Nat.add_sub_cancel_left]

/-- Settles O55: the codes by evaluation, and the indices range by range. -/
theorem statusIndicesNameTheirFields : Obligations.StatusIndicesNameTheirFields := by
  refine ⟨rfl, rfl, rfl, rfl, fun s hn => ?_⟩
  refine ⟨fun i hi => ?_, rfl, rfl, rfl, rfl, rfl, rfl, rfl, rfl, rfl, rfl, rfl, rfl, rfl, rfl,
    fun index h h' => ?_, fun index h h' => ?_, fun index h => ?_⟩
  · have hvm (j : Nat) (hj : j < 8) := State.statusField_vm hn hi hj
    exact ⟨State.statusField_phase hn hi, hvm 0 (by decide), hvm 1 (by decide), hvm 2 (by decide),
      hvm 3 (by decide), hvm 4 (by decide), hvm 5 (by decide), hvm 6 (by decide), hvm 7 (by decide)⟩
  · rw [State.statusField_of_lt h (by omega), State.phaseField_eq_none (.inl h')]
  · rw [State.statusField_of_lt (by omega) h', State.phaseField_eq_none (.inr h)]
  · rw [State.statusField_of_ge (by omega) (by omega), State.vmField_eq_none (.inr h)]

end Sys2Proof.Machine

/-! ## A block step without the host's lists

No action of the block reads the host's coming moves or its own answers, so two states that differ in them
alone stay alike. -/

namespace Sys2Proof.Machine

variable {s t : State}

/-- The block, with the host's moves and the answers it was given forgotten. -/
def State.withoutHost (s : State) : State := { s with hostMoves := [], hostAnswers := [] }

@[simp] theorem State.withoutHost_netState : s.withoutHost.netState = s.netState := rfl
@[simp] theorem State.withoutHost_active : s.withoutHost.active = s.active := rfl

theorem State.send_withoutHost : s.withoutHost.send = s.send.withoutHost := by
  unfold State.send
  rw [apply_ite State.withoutHost]
  rfl

theorem State.nextTurn_withoutHost : s.withoutHost.nextTurn = s.nextTurn.withoutHost := by
  unfold State.nextTurn
  rw [apply_ite State.withoutHost]
  rfl

theorem State.passEnd_withoutHost : s.withoutHost.passEnd = s.passEnd.withoutHost := by
  unfold State.passEnd
  rw [apply_ite State.withoutHost]
  rfl

theorem State.collect_withoutHost : s.withoutHost.collect = s.collect.withoutHost := by
  rcases s.collect_cases with ⟨hf, h⟩ | ⟨hf, x, rest, hq, h⟩ | ⟨hh, hq, h⟩ | ⟨hf, hh, hq, h⟩ <;> rw [h]
  · exact State.collect_of_faulted (s := s.withoutHost) hf
  · rw [← State.nextTurn_withoutHost]
    exact State.collect_of_output (s := s.withoutHost) hf hq
  · rw [← State.nextTurn_withoutHost]
    exact State.collect_of_drained (s := s.withoutHost) hh hq
  · exact State.collect_of_starved (s := s.withoutHost) hf hh hq

theorem State.orchestrate_withoutHost : s.withoutHost.orchestrate = s.orchestrate.withoutHost := by
  unfold State.orchestrate
  rw [State.withoutHost_netState]
  cases s.netState with
  | turnSend => exact State.send_withoutHost
  | turnCollect => exact State.collect_withoutHost
  | passEnd => exact State.passEnd_withoutHost
  | turnRun | idle | done | error => rfl

theorem State.commitVm_withoutHost (k : Nat) (v : Vm) :
    (s.withoutHost.commitVm k v).withoutHost = (s.commitVm k v).withoutHost := by
  unfold State.commitVm
  rw [State.withoutHost_netState]
  split <;> rfl

/-- A block step, with the host's lists forgotten before it or after. -/
theorem State.blockStep_withoutHost (s : State) :
    ∃ t t', s.blockStep = .next t ∧ s.withoutHost.blockStep = .next t' ∧ t'.withoutHost = t.withoutHost := by
  rcases s.blockStep_cases with ⟨k, ha, hs⟩ | ⟨ha, hs⟩
  · refine ⟨_, _, hs, ?_, State.commitVm_withoutHost k _⟩
    unfold State.blockStep
    rw [State.withoutHost_active, ha]
    exact State.vmStep_of_active ha
  · refine ⟨_, s.orchestrate.withoutHost, hs, ?_, rfl⟩
    unfold State.blockStep
    rw [State.withoutHost_active, ha, ← State.orchestrate_withoutHost]

/-- Blocks alike but for the host's lists stay alike. -/
theorem State.blockStep_congr (h : s.withoutHost = t.withoutHost) :
    ∃ s' t', s.blockStep = .next s' ∧ t.blockStep = .next t' ∧ s'.withoutHost = t'.withoutHost := by
  obtain ⟨s', s'', hs, hs', hss⟩ := s.blockStep_withoutHost
  obtain ⟨t', t'', ht, ht', htt⟩ := t.blockStep_withoutHost
  rw [h] at hs'
  cases hs'.symm.trans ht'
  exact ⟨s', t', hs, ht, hss.symm.trans htt⟩

end Sys2Proof.Machine

/-! ## Waiting for a network run -/

namespace Sys2Proof.Machine

variable {s t : State} {fuel : Nat}

/-- The network run has ended (rule R103). -/
abbrev State.Ended (s : State) : Prop := s.netState = .done ∨ s.netState = .error

theorem State.waitNetwork_of_ended (h : s.Ended) : s.waitNetwork fuel = some s := by
  rcases h with h | h <;> unfold State.waitNetwork <;> rw [h]

theorem State.waitNetwork_zero (h : ¬ s.Ended) : s.waitNetwork 0 = none := by
  unfold State.waitNetwork
  cases hn : s.netState <;> simp_all [State.Ended]

theorem State.waitNetwork_succ (h : ¬ s.Ended) (hs : s.blockStep = .next t) :
    s.waitNetwork (fuel + 1) = t.waitNetwork fuel := by
  rw [State.waitNetwork]
  cases hn : s.netState <;> simp_all [State.Ended]

/-- What the wait answers is a run that has ended, with the program it was started with. -/
theorem State.waitNetwork_some {s : State} {fuel : Nat} (h : s.waitNetwork fuel = some t) : t.Ended ∧ s.SameProgram t := by
  by_cases hs : s.Ended
  · rw [State.waitNetwork_of_ended hs] at h
    cases h
    exact ⟨hs, .refl _⟩
  match fuel, h with
  | 0, h =>
    rw [State.waitNetwork_zero hs] at h
    cases h
  | fuel + 1, h =>
    obtain ⟨s', -, hstep, -, -⟩ := s.blockStep_withoutHost
    rw [State.waitNetwork_succ hs hstep] at h
    obtain ⟨hended, hsame⟩ := State.waitNetwork_some h
    exact ⟨hended, (State.sameProgram_blockStep hstep).trans hsame⟩

/-- The wait does not read the host's lists. -/
theorem State.waitNetwork_congr {s t : State} {fuel : Nat} (h : s.withoutHost = t.withoutHost) :
    (s.waitNetwork fuel).map State.withoutHost = (t.waitNetwork fuel).map State.withoutHost := by
  have hnet : s.netState = t.netState := (congrArg State.netState h :)
  by_cases hs : s.Ended
  · have ht : t.Ended := by rwa [State.Ended, ← hnet]
    rw [State.waitNetwork_of_ended hs, State.waitNetwork_of_ended ht, Option.map_some, Option.map_some, h]
  have ht : ¬ t.Ended := by rwa [State.Ended, ← hnet]
  match fuel with
  | 0 => rw [State.waitNetwork_zero hs, State.waitNetwork_zero ht]
  | fuel + 1 =>
    obtain ⟨s', t', hs', ht', hst⟩ := State.blockStep_congr h
    rw [State.waitNetwork_succ hs hs', State.waitNetwork_succ ht ht']
    exact State.waitNetwork_congr hst

end Sys2Proof.Machine

/-! ## The search -/

namespace Sys2Proof.Machine

variable {s s0 t : State} {fuel : Nat} {fb : Bool} {phase : List Int}

/-- The launch of a network run by CONFIGURE and START. -/
def State.launched (s : State) (fb : Bool) (phase : List Int) : State :=
  ({ s with blkMode := .network, feedback := fb, phase := phase }.answer .ok).launch.answer .ok

theorem State.request_of_refused {tx : Txn} {r : HostRefusal} (h : s.refusal tx = some r) :
    s.request tx = .error r := by
  unfold State.request
  rw [h]

theorem State.request_of_allowed {tx : Txn} (h : s.refusal tx = none) : s.request tx = .ok (s.perform tx) := by
  unfold State.request
  rw [h]

theorem State.busy_of_refusal_load_none {seq : List Int} (h : s.refusal (.load seq) = none) :
    s.busy = false := by
  unfold State.refusal at h
  dsimp only at h
  split_ifs at h with _ hb
  simpa using hb

/-- A block that is not busy takes every CONFIGURE that is well typed. -/
theorem State.refusal_configure_of_not_busy (hb : s.busy = false) {mode : BlkMode} :
    s.refusal (.configure mode fb phase) =
      if (Txn.configure mode fb phase).wellTyped s.params = false then some .illTyped else none := by
  unfold State.refusal
  simp [hb]

/-- A block that is not busy takes CONFIGURE and START one after the other, when the phases are well
typed. -/
theorem State.request_launch (hb : s.busy = false) :
    ((s.request (.configure .network fb phase)).bind fun s1 => s1.request .start) =
      if (Txn.configure .network fb phase).wellTyped s.params = false then .error .illTyped
      else .ok (s.launched fb phase) := by
  have hconf := State.refusal_configure_of_not_busy (fb := fb) (phase := phase) hb (mode := .network)
  split
  · next hill =>
    rw [if_pos hill] at hconf
    rw [State.request_of_refused hconf]
    rfl
  · next hwell =>
    rw [if_neg hwell] at hconf
    rw [State.request_of_allowed hconf]
    obtain ⟨hnet, -⟩ := State.of_not_busy hb
    have hbusy : (s.perform (.configure .network fb phase)).busy = false :=
      Bool.or_eq_false_iff.2 ⟨hnet, rfl⟩
    exact State.request_of_allowed (State.refusal_start_of_not_busy hbusy)

/-- A run that is answered has ended in `DONE`, and leaves a block that is not busy with the same program
(rule R103). -/
theorem State.networkRun_ok (hb : s.busy = false) (h : s.networkRun fuel fb phase = .ok t) :
    t.netState = .done ∧ t.params = s.params ∧ t.prog = s.prog ∧ t.busy = false := by
  unfold State.networkRun at h
  rw [State.request_launch hb] at h
  split_ifs at h
  dsimp only at h
  split at h
  · cases h
  · next t' hw =>
    split_ifs at h with herr
    cases h
    obtain ⟨hended, hsame⟩ := State.waitNetwork_some hw
    have hdone : t.netState = .done := hended.resolve_right herr
    have hmode : t.blkMode = .network := hsame.blkMode
    exact ⟨hdone, hsame.params, hsame.prog, by simp [State.busy, State.netBusy, hdone, hmode]⟩

/-- A run that is not answered gives the search no value. -/
theorem State.networkRun_error_ne_best {r : SearchResult} (h : s.networkRun fuel fb phase = .error r) (v : Int) :
    r ≠ .best v := by
  unfold State.networkRun at h
  split at h
  · cases h; simp
  · split at h
    · cases h; simp
    · split_ifs at h
      cases h; simp

/-- The block as the search finds it before a run: the program loaded into `s0`, and no run going on. -/
structure State.Reloaded (s0 s : State) : Prop where
  params : s.params = s0.params
  prog : s.prog = s0.prog
  notBusy : s.busy = false

/-- A launch writes every field but the parameters, the program image and the host's lists (rule R98). -/
theorem State.Reloaded.launched_withoutHost (h : s0.Reloaded s) :
    (s.launched fb phase).withoutHost = (s0.launched fb phase).withoutHost := by
  simp [State.launched, State.launch, State.answer, State.withoutHost, h.params, h.prog]

/-- Every run starts from a fresh copy of the program, so it goes as the first run after the load did
(rule R32). -/
theorem State.Reloaded.networkRun_map (h0 : s0.busy = false) (h : s0.Reloaded s) :
    (s.networkRun fuel fb phase).map State.withoutHost =
      (s0.networkRun fuel fb phase).map State.withoutHost := by
  have hwait := State.waitNetwork_congr (fuel := fuel) (h.launched_withoutHost (fb := fb) (phase := phase))
  unfold State.networkRun
  rw [State.request_launch h.notBusy, State.request_launch h0, h.params]
  split_ifs
  · rfl
  dsimp only
  cases hs0 : (s0.launched fb phase).waitNetwork fuel with
  | none =>
    have hs : (s.launched fb phase).waitNetwork fuel = none := by simpa [hs0] using hwait
    rw [hs]
  | some t0 =>
    obtain ⟨t, hs, ht⟩ : ∃ t, (s.launched fb phase).waitNetwork fuel = some t ∧
        t.withoutHost = t0.withoutHost := by simpa [hs0] using hwait
    have hnet : t.netState = t0.netState := (congrArg State.netState ht :)
    have herr : t.netErr = t0.netErr := (congrArg State.netErr ht :)
    rw [hs]
    dsimp only
    rw [hnet, herr]
    split
    · rfl
    · exact congrArg Except.ok ht

/-- The first run after the load answers as the next one does, but for the host's lists. -/
theorem State.Reloaded.networkRun_ok (h0 : s0.busy = false) (h : s0.Reloaded s)
    (hrun : s0.networkRun fuel fb phase = .ok t) :
    ∃ s', s.networkRun fuel fb phase = .ok s' ∧ s'.result = t.result ∧ s0.Reloaded s' := by
  have heq := h.networkRun_map (fuel := fuel) (fb := fb) (phase := phase) h0
  rw [hrun] at heq
  cases hs : s.networkRun fuel fb phase with
  | error r => rw [hs] at heq; cases heq
  | ok s' =>
    rw [hs] at heq
    have hst : s'.withoutHost = t.withoutHost := Except.ok.inj heq
    obtain ⟨-, hparams, hprog, hbusy⟩ := State.networkRun_ok h.notBusy hs
    exact ⟨s', rfl, (congrArg State.result hst :), hparams.trans h.params, hprog.trans h.prog, hbusy⟩

theorem State.Reloaded.networkRun_error (h0 : s0.busy = false) (h : s0.Reloaded s) {r : SearchResult}
    (hrun : s0.networkRun fuel fb phase = .error r) : s.networkRun fuel fb phase = .error r := by
  have heq := h.networkRun_map (fuel := fuel) (fb := fb) (phase := phase) h0
  rw [hrun] at heq
  cases hs : s.networkRun fuel fb phase with
  | error r' => rw [hs] at heq; exact heq
  | ok s' => rw [hs] at heq; cases heq

/-! ### The loop over the permutations -/

/-- The best result so far, when a run has given `r`. -/
def bestWith (best : Option Int) (r : Int) : Int := best.elim r (max · r)

theorem le_bestWith (best : Option Int) (r : Int) : r ≤ bestWith best r ∧ ∀ b ∈ best, b ≤ bestWith best r := by
  cases best <;> simp [bestWith]

theorem bestWith_eq (best : Option Int) (r : Int) : bestWith best r = r ∨ best = some (bestWith best r) := by
  cases best with
  | none => exact .inl rfl
  | some b => exact (max_choice b r).symm.imp_right fun h => congrArg some h.symm

theorem State.searchFrom_cons_ok {best : Option Int} {rest : List (List Int)}
    (h : s.networkRun fuel fb phase = .ok t) :
    s.searchFrom fuel fb best (phase :: rest) = t.searchFrom fuel fb (some (bestWith best t.result)) rest := by
  rw [State.searchFrom, h]
  cases best <;> rfl

theorem State.searchFrom_cons_error {best : Option Int} {rest : List (List Int)} {r : SearchResult}
    (h : s.networkRun fuel fb phase = .error r) : s.searchFrom fuel fb best (phase :: rest) = r := by
  rw [State.searchFrom, h]

/-- After runs that all end in `DONE`, the first error is the search's answer. -/
theorem State.Reloaded.searchFrom_error (h0 : s0.busy = false) (h : s0.Reloaded s) {best : Option Int}
    {pre post : List (List Int)} {r : SearchResult}
    (hpre : ∀ p ∈ pre, ∃ t, s0.networkRun fuel fb p = .ok t)
    (hrun : s0.networkRun fuel fb phase = .error r) :
    s.searchFrom fuel fb best (pre ++ phase :: post) = r := by
  induction pre generalizing s best with
  | nil => exact State.searchFrom_cons_error (h.networkRun_error h0 hrun)
  | cons p pre ih =>
    obtain ⟨t, ht⟩ := hpre p (by simp)
    obtain ⟨s', hs', -, hnext⟩ := h.networkRun_ok h0 ht
    rw [List.cons_append, State.searchFrom_cons_ok hs']
    exact ih hnext fun q hq => hpre q (by simp [hq])

/-- A search that answers `v` has seen every run end in `DONE` with at most `v`, and `v` itself from one of
them or as the best result it began with. -/
theorem State.Reloaded.searchFrom_best (h0 : s0.busy = false) (h : s0.Reloaded s) {best : Option Int}
    {perms : List (List Int)} {v : Int} (hv : s.searchFrom fuel fb best perms = .best v) :
    (∀ p ∈ perms, ∃ t, s0.networkRun fuel fb p = .ok t ∧ t.netState = .done ∧ t.result ≤ v) ∧
    (∀ b ∈ best, b ≤ v) ∧
    (best = some v ∨ ∃ p ∈ perms, ∃ t, s0.networkRun fuel fb p = .ok t ∧ t.result = v) := by
  induction perms generalizing s best with
  | nil =>
    cases best with
    | none => cases hv
    | some b => cases hv; simp
  | cons p perms ih =>
    cases hrun : s0.networkRun fuel fb p with
    | error r =>
      rw [State.searchFrom_cons_error (h.networkRun_error h0 hrun)] at hv
      exact absurd hv (State.networkRun_error_ne_best hrun v)
    | ok t =>
      obtain ⟨s', hs', hresult, hnext⟩ := h.networkRun_ok h0 hrun
      obtain ⟨hdone, -⟩ := State.networkRun_ok h0 hrun
      rw [State.searchFrom_cons_ok hs', hresult] at hv
      obtain ⟨hall, hle, hfrom⟩ := ih hnext hv
      have hbest : bestWith best t.result ≤ v := hle _ rfl
      obtain ⟨hr, hb⟩ := le_bestWith best t.result
      refine ⟨List.forall_mem_cons.2 ⟨⟨t, hrun, hdone, hr.trans hbest⟩, hall⟩,
        fun b hmem => (hb b hmem).trans hbest, ?_⟩
      rcases hfrom with hfrom | ⟨q, hq, hqv⟩
      · rw [← Option.some.inj hfrom]
        exact (bestWith_eq best t.result).symm.imp_right fun heq => ⟨p, by simp, t, hrun, heq.symm⟩
      · exact .inr ⟨q, by simp [hq], hqv⟩

/-- After a LOAD that was not refused the search begins with no run going on. -/
theorem State.request_load_ok {program : List Int} (h : s.request (.load program) = .ok s0) :
    s0.busy = false ∧ ∀ perms, s.bestSignal fuel program fb perms = s0.searchFrom fuel fb none perms := by
  refine ⟨?_, fun perms => by unfold State.bestSignal; rw [h]⟩
  cases hr : s.refusal (.load program) with
  | some r => rw [State.request_of_refused hr] at h; cases h
  | none =>
    rw [State.request_of_allowed hr] at h
    cases h
    exact State.busy_of_refusal_load_none hr

/-- Settles O57: each earlier run is answered as it is first, and then the error is. -/
theorem searchAbortsOnNetworkError : Obligations.SearchAbortsOnNetworkError := by
  intro fuel s s0 program fb hload
  obtain ⟨h0, hsearch⟩ := State.request_load_ok (fuel := fuel) (fb := fb) hload
  refine ⟨hsearch [], fun pre post perm e hpre hperm => ?_⟩
  rw [hsearch]
  exact State.Reloaded.searchFrom_error h0 ⟨rfl, rfl, h0⟩ (fun p hp => (hpre p hp).imp fun _ h => h.1) hperm

/-- Settles O58: the loop's answer is the greatest of the first runs' results. -/
theorem searchAnswersGreatestResult : Obligations.SearchAnswersGreatestResult := by
  intro fuel s s0 program fb perms v hload hv
  obtain ⟨h0, hsearch⟩ := State.request_load_ok (fuel := fuel) (fb := fb) hload
  rw [hsearch] at hv
  obtain ⟨hall, -, hfrom⟩ := State.Reloaded.searchFrom_best h0 ⟨rfl, rfl, h0⟩ hv
  exact ⟨hall, hfrom.resolve_left (by simp)⟩

end Sys2Proof.Machine

/-! # Proofs of the memory family (`20_memory.md`)

What IN, OUT and the control instructions leave unchanged, each read off its effect; and the fetch outside
memory. -/

namespace Sys2Proof.Machine

variable {s t : State} {k : Nat} {i : Instr} {p : Params} {vm vm' : Vm}

/-! ## An instruction faults or completes -/

/-- An instruction changes only the active VM: it raises a fault there and does nothing else (rule R69),
or the VM is what its effect answers. -/
theorem exec_next_cases (ha : s.active = some k) (h : exec i s = .next t) :
    s.OnlyVm t k ∧
      ((∃ e, t.vm k = (s.vm k).raise e) ∨ effectOf i s.params (s.vm k) = .ok (t.vm k)) := by
  obtain ⟨honly, hvm⟩ := exec_next ha h
  rw [hvm]
  cases effectOf i s.params (s.vm k) with
  | error e => exact ⟨honly, .inl ⟨e, rfl⟩⟩
  | ok vm' => exact ⟨honly, .inr rfl⟩

/-! ## What IN, OUT, JT, JF and HALT leave unchanged -/

/-- A store at a resolved target leaves every other address as it was (rule R44). -/
theorem Memory.read_store_of_not_target {m : Memory} {a x : Int} (v : Int) (ha : m.InBounds a)
    (hx : target m a ≠ .ok x) : (m.store a v).read x = m.read x :=
  Memory.read_store_of_ne m a x v ha.1 fun h => hx (h ▸ target_of_inBounds m a ha)

/-- Settles O21: IN waits, or stores its one word at the target. -/
theorem inFrame : Obligations.InFrame := by
  intro s t k m0 p0 ha ht
  obtain ⟨honly, ⟨e, hvm⟩ | hok⟩ := exec_next_cases ha ht
  · rw [hvm]
    exact ⟨honly, rfl, rfl, fun _ _ => rfl, fun hs => absurd rfl hs⟩
  · obtain ⟨hb, ⟨-, hvm⟩ | ⟨v, rest, -, hvm⟩⟩ := inEffect_ok (s.vm k) p0 hok <;> rw [hvm]
    · exact ⟨honly, rfl, rfl, fun _ _ => rfl, fun _ => rfl⟩
    · exact ⟨honly, rfl, Memory.store_length _ _ _,
        fun _ hx => Memory.read_store_of_not_target v hb hx, fun _ => rfl⟩

/-- Settles O22: OUT's effect writes the output queue, `ip` and the lifecycle state. -/
theorem outFrame : Obligations.OutFrame := by
  intro s t k m0 p0 ha ht
  obtain ⟨honly, ⟨e, hvm⟩ | hok⟩ := exec_next_cases ha ht
  · rw [hvm]
    exact ⟨honly, rfl, rfl, fun _ => rfl, fun hs => absurd rfl hs⟩
  · obtain ⟨v, -, -, hvm⟩ := outEffect_ok s.params (s.vm k) m0 p0 hok
    rw [hvm]
    exact ⟨honly, rfl, rfl, fun _ => rfl, fun _ => rfl⟩

/-- A jump that completes writes `ip` alone. -/
theorem jumpEffect_ok_ip {m0 m1 : Mode} {p0 p1 : Int} {taken : Int → Bool}
    (h : jumpEffect m0 m1 p0 p1 taken vm = .ok vm') : ∃ a, vm' = { vm with ip := a } := by
  obtain ⟨c, a, -, -, rfl⟩ := (jumpEffect_ok vm m0 m1 p0 p1).1 h
  exact ⟨_, rfl⟩

/-- JT and JF, when they complete, write `ip` alone, and HALT the lifecycle state alone (rules R94 to
R96). -/
theorem effectOf_control_ok {m0 m1 : Mode} {p0 p1 : Int}
    (hi : i = .jt m0 m1 p0 p1 ∨ i = .jf m0 m1 p0 p1 ∨ i = .halt) (h : effectOf i p vm = .ok vm') :
    (∃ a, vm' = { vm with ip := a }) ∨ (i = .halt ∧ vm' = { vm with state := .halted }) := by
  rcases hi with rfl | rfl | rfl
  · rw [effectOf_jt] at h
    exact .inl (jumpEffect_ok_ip h)
  · rw [effectOf_jf] at h
    exact .inl (jumpEffect_ok_ip h)
  · cases h
    exact .inr ⟨rfl, rfl⟩

/-- Settles O23: a fault, a write of `ip` and a halt each leave memory and queues. -/
theorem controlFrame : Obligations.ControlFrame := by
  intro s t k m0 m1 p0 p1 i ha hi ht
  obtain ⟨honly, ⟨e, hvm⟩ | hok⟩ := exec_next_cases ha ht
  · rw [hvm]
    exact ⟨honly, rfl, rfl, rfl, fun _ => rfl, fun hs => absurd rfl hs, fun _ hs => absurd rfl hs⟩
  · obtain ⟨a, hvm⟩ | ⟨hhalt, hvm⟩ := effectOf_control_ok hi hok <;> rw [hvm]
    · exact ⟨honly, rfl, rfl, rfl, fun _ => rfl, fun _ => rfl, fun _ _ => rfl⟩
    · exact ⟨honly, rfl, rfl, rfl, fun _ => rfl, fun _ => rfl, fun hne => absurd hhalt hne⟩

/-! ## A fetch that faults -/

theorem Vm.fetch_of_not_inBounds (h : ¬ vm.mem.InBounds vm.ip) : vm.fetch = .error (.outOfBounds vm.ip) :=
  if_neg h

/-- A step whose fetch faults raises that fault. -/
theorem Vm.next_of_fetch_error {e : VmErr} (h : vm.fetch = .error e) : vm.next p = vm.raise e := by
  unfold Vm.next
  rw [h]

/-- Settles O25: the step is the active VM's, and its fetch is outside memory. -/
theorem fetchOutsideMemoryFaults : Obligations.FetchOutsideMemoryFaults := by
  intro s k hsilent ha hip
  rw [step_of_active hsilent ha, Vm.next_of_fetch_error (Vm.fetch_of_not_inBounds hip)]
  rfl

end Sys2Proof.Machine

/-! # Proofs of the encoding family (`30_encoding.md`)

The instruction word and its fields are inverse to each other; on that rest the encoder and the decoder of
whole instructions.  Then assembly, the mode of a write target, and the fetches the decoder rejects. -/

/-! ## The fields of the instruction word -/

namespace Sys2Proof

variable {w op : Int} {f : Fields} {roles : List Role} {k n : Nat}

theorem opcode_bounds (h : rolesOf op = some roles) : 0 ≤ op ∧ op ≤ 99 := by
  have := rolesOf_eq_some.1 h
  omega

theorem roles_length_le (h : rolesOf op = some roles) : roles.length ≤ 3 := by
  rcases rolesOf_eq_some.1 h with ⟨-, rfl⟩ | ⟨-, rfl⟩ | ⟨-, rfl⟩ | ⟨-, rfl⟩ | ⟨-, rfl⟩ <;> decide

/-- Splitting a non-negative word, with every power of ten written out. -/
theorem decodeFields_of_nonneg (h : 0 ≤ w) :
    decodeFields w = ⟨w % 100, w / 100 % 10, w / 1000 % 10, w / 10000 % 10⟩ := by
  simp [decodeFields, opcodeOf_of_nonneg h, modeDigit_of_nonneg _ h, pow10]

/-- A two-digit opcode and binary mode digits stand apart in the word they make (rule R63). -/
theorem decodeFields_encodeFields (hop : 0 ≤ f.opcode ∧ f.opcode ≤ 99)
    (h0 : 0 ≤ f.mode0 ∧ f.mode0 ≤ 1) (h1 : 0 ≤ f.mode1 ∧ f.mode1 ≤ 1) (h2 : 0 ≤ f.mode2 ∧ f.mode2 ≤ 1) :
    decodeFields (encodeFields f) = f := by
  rw [decodeFields_of_nonneg (encodeFields_bounds hop h0 h1 h2).1]
  cases f
  simp only [encodeFields, Fields.mk.injEq] at *
  omega

/-- A word of at most five digits is put together again from its fields. -/
theorem encodeFields_decodeFields_of_lt (h0 : 0 ≤ w) (h : w < 100000) : encodeFields (decodeFields w) = w := by
  rw [decodeFields_of_nonneg h0]
  simp only [encodeFields]
  omega

theorem pow10_eq (k : Nat) : pow10 k = 10 ^ k := by
  induction k with
  | zero => rfl
  | succ k ih => rw [pow10, ih, pow_succ']

/-- A word with no digit from place `n` on lies below `10^n`, and below every greater power. -/
theorem lt_pow10_of_ediv_eq_zero (hw : w / pow10 n = 0) (hk : n ≤ k) : w < pow10 k := by
  have hlt : w < 1 * pow10 n := (Int.ediv_lt_iff_lt_mul (pow10_pos n)).1 (by omega)
  have hmono : pow10 n ≤ pow10 k := by
    simpa only [pow10_eq] using pow_le_pow_right₀ (by decide : (1 : Int) ≤ 10) hk
  omega

/-! ### The fields of a valid word -/

/-- Beyond the opcode's parameters a valid word has the mode digit 0 (rule R59). -/
theorem modeDigit_of_unused (h : validWord w = true) (hr : rolesOf (opcodeOf w) = some roles)
    (hk : roles.length ≤ k) : modeDigit k w = 0 := by
  obtain ⟨h0, _, hr', -, hhigh⟩ := validWord_iff.1 h
  cases hr.symm.trans hr'
  have hlt : w < pow10 (2 + k) := lt_pow10_of_ediv_eq_zero hhigh (Nat.add_le_add_left hk 2)
  rw [modeDigit_of_nonneg k h0, Int.ediv_eq_zero_of_lt h0 hlt, Int.zero_emod]

/-- Every mode digit of a valid word is 0 or 1 (rule R59). -/
theorem modeDigit_of_validWord (h : validWord w = true) (k : Nat) : modeDigit k w = 0 ∨ modeDigit k w = 1 := by
  obtain ⟨-, roles, hr, hdigits, -⟩ := validWord_iff.1 h
  rcases Nat.lt_or_ge k roles.length with hk | hk
  · exact hdigits k hk
  · exact .inl (modeDigit_of_unused h hr hk)

/-- A valid word has at most five digits, and is put together again from its fields (rule R63). -/
theorem encodeFields_decodeFields (h : validWord w = true) : encodeFields (decodeFields w) = w := by
  obtain ⟨h0, roles, hr, -, hhigh⟩ := validWord_iff.1 h
  have hlt : w < pow10 5 := lt_pow10_of_ediv_eq_zero hhigh (Nat.add_le_add_left (roles_length_le hr) 2)
  exact encodeFields_decodeFields_of_lt h0 hlt

/-- Settles O1: a valid word has at most five digits, and the digits of a tuple's word are the tuple. -/
theorem fieldsRoundTrip : Obligations.FieldsRoundTrip := by
  refine ⟨fun w hw => encodeFields_decodeFields hw, fun op m0 m1 m2 roles hr h0 h1 h2 _ _ _ => ?_⟩
  exact decodeFields_encodeFields (opcode_bounds hr) (by simp only; omega) (by simp only; omega) (by simp only; omega)

end Sys2Proof

/-! ## Encoder and decoder of whole instructions -/

namespace Sys2Proof

variable {w : Int} {ps rest : List Int} {i : Instr} {roles : List Role} {f : Fields} {n : Nat}

/-! ### The decoder on the encoder's words -/

theorem decodeFields_encodeWord (i : Instr) : decodeFields (encodeWord i) = i.fields := by
  have hz : (0 : Int) ≤ 0 ∧ (0 : Int) ≤ 1 := by decide
  cases i with
  | add m0 m1 m2 | mul m0 m1 m2 | lt m0 m1 m2 | eq m0 m1 m2 =>
    exact decodeFields_encodeFields (by simp [Instr.fields]) m0.digit_bounds m1.digit_bounds m2.digit_bounds
  | inp m0 | out m0 => exact decodeFields_encodeFields (by simp [Instr.fields]) m0.digit_bounds hz hz
  | jt m0 m1 | jf m0 m1 =>
    exact decodeFields_encodeFields (by simp [Instr.fields]) m0.digit_bounds m1.digit_bounds hz
  | halt => exact decodeFields_encodeFields (by decide) hz hz hz

theorem validWord_encodeWord (i : Instr) : validWord (encodeWord i) = true :=
  match i with
  | .add .. => Laws.ValidEncoding.add ..
  | .mul .. => Laws.ValidEncoding.mul ..
  | .inp .. => Laws.ValidEncoding.inp ..
  | .out .. => Laws.ValidEncoding.out ..
  | .jt .. => Laws.ValidEncoding.jt ..
  | .jf .. => Laws.ValidEncoding.jf ..
  | .lt .. => Laws.ValidEncoding.lt ..
  | .eq .. => Laws.ValidEncoding.eq ..
  | .halt => Laws.ValidEncoding.halt

@[simp] theorem modeOfDigit_digit (m : Mode) : modeOfDigit m.digit = m := by
  cases m <;> rfl

/-- The decoder finds in the word the opcode and the modes the encoder wrote there, and takes the
instruction's parameters. -/
theorem decode_encode_append (i : Instr) (rest : List Int) : decode (encode i ++ rest) = .ok (i, rest) := by
  have hfields := decodeFields_encodeWord i
  rw [encode, List.cons_append, decode, if_pos (validWord_encodeWord i)]
  cases i <;>
    simp only [decodeFields, Instr.fields, Fields.mk.injEq] at hfields <;>
    simp [decodeParams, modeOf, hfields, Instr.params, takeOne, takeTwo, takeThree]

/-! ### The decoder's answer to a valid word -/

/-- What the decoder may answer for the words `ps` after an instruction word with the fields `f` and `n`
parameters: an instruction with those fields, or the first parameter that is missing. -/
def ReadsAs (f : Fields) (n : Nat) (ps : List Int) : Except Reject (Instr × List Int) → Prop
  | .ok (i, _) => i.fields = f ∧ i.params.length = n
  | .error r => r = .missingParameter ps.length ∧ ps.length < n

theorem takeOne_readsAs {mk : Int → Instr} (h : ∀ p0, (mk p0).fields = f ∧ (mk p0).params.length = 1) :
    ReadsAs f 1 ps (takeOne mk ps) := by
  match ps with
  | [] => exact ⟨rfl, Nat.zero_lt_one⟩
  | p0 :: _ => exact h p0

theorem takeTwo_readsAs {mk : Int → Int → Instr}
    (h : ∀ p0 p1, (mk p0 p1).fields = f ∧ (mk p0 p1).params.length = 2) : ReadsAs f 2 ps (takeTwo mk ps) := by
  match ps with
  | [] | [_] => exact ⟨rfl, by simp⟩
  | p0 :: p1 :: _ => exact h p0 p1

theorem takeThree_readsAs {mk : Int → Int → Int → Instr}
    (h : ∀ p0 p1 p2, (mk p0 p1 p2).fields = f ∧ (mk p0 p1 p2).params.length = 3) :
    ReadsAs f 3 ps (takeThree mk ps) := by
  match ps with
  | [] | [_] | [_, _] => exact ⟨rfl, by simp⟩
  | p0 :: p1 :: p2 :: _ => exact h p0 p1 p2

/-- The mode of a valid word's parameter keeps its digit. -/
theorem digit_modeOf (h : validWord w = true) (k : Nat) : (modeOf k w).digit = modeDigit k w := by
  unfold modeOf
  rcases modeDigit_of_validWord h k with hd | hd <;> rw [hd] <;> rfl

/-- A valid word is read with its own fields and its opcode's parameters. -/
theorem decode_cons_readsAs (h : validWord w = true) (hr : rolesOf (opcodeOf w) = some roles) (ps : List Int) :
    ReadsAs (decodeFields w) roles.length ps (decode (w :: ps)) := by
  have hunused : ∀ k, roles.length ≤ k → modeDigit k w = 0 := fun k => modeDigit_of_unused h hr
  rw [decode, if_pos h]
  unfold decodeParams decodeFields
  rcases rolesOf_eq_some.1 hr with ⟨hop, rfl⟩ | ⟨hop, rfl⟩ | ⟨hop, rfl⟩ | ⟨hop, rfl⟩ | ⟨hop, rfl⟩
  · rcases hop with hop | hop | hop | hop <;> simp only [hop, Int.reduceEq, if_true, if_false] <;>
      exact takeThree_readsAs fun _ _ _ => ⟨by simp [Instr.fields, digit_modeOf h], rfl⟩
  · simp only [hop, Int.reduceEq, if_true, if_false]
    exact takeOne_readsAs fun _ => ⟨by simp [Instr.fields, digit_modeOf h, hunused], rfl⟩
  · simp only [hop, Int.reduceEq, if_true, if_false]
    exact takeOne_readsAs fun _ => ⟨by simp [Instr.fields, digit_modeOf h, hunused], rfl⟩
  · rcases hop with hop | hop <;> simp only [hop, Int.reduceEq, if_true, if_false] <;>
      exact takeTwo_readsAs fun _ _ => ⟨by simp [Instr.fields, digit_modeOf h, hunused], rfl⟩
  · simp only [hop, Int.reduceEq, if_true, if_false]
    exact ⟨by simp [Instr.fields, hunused], rfl⟩

theorem decode_of_not_validWord (h : validWord w = false) : decode (w :: ps) = .error (.illegalWord w) := by
  simp [decode, h]

/-- Too few words after a valid word: the decoder names the first missing parameter (rule R72). -/
theorem decode_of_missing (h : validWord w = true) (hr : rolesOf (opcodeOf w) = some roles)
    (hlt : ps.length < roles.length) : decode (w :: ps) = .error (.missingParameter ps.length) := by
  have hreads := decode_cons_readsAs h hr ps
  have htaken := decode_cons_takenFrom w ps
  match hd : decode (w :: ps) with
  | .ok (i, rest) =>
    rw [hd] at hreads htaken
    obtain ⟨-, hlen⟩ := hreads
    have : ps = i.params ++ rest := htaken
    simp [this, hlen] at hlt
  | .error r =>
    rw [hd] at hreads
    rw [hreads.1]

/-- The word of a decoded instruction is the encoder's (rule R63). -/
theorem encodeWord_of_decode (h : decode (w :: ps) = .ok (i, rest)) : encodeWord i = w := by
  cases hv : validWord w with
  | false => rw [decode_of_not_validWord hv] at h; cases h
  | true =>
    obtain ⟨-, roles, hr, -, -⟩ := validWord_iff.1 hv
    have hreads := decode_cons_readsAs hv hr ps
    rw [h] at hreads
    rw [encodeWord, hreads.1, encodeFields_decodeFields hv]

/-- Settles O2: the encoder's word has the fields of its instruction, and the fields of a word that decodes
make up the word. -/
theorem decodeInvertsEncode : Obligations.DecodeInvertsEncode := by
  refine ⟨decode_encode_append, fun ws i rest h => ?_⟩
  obtain ⟨w, rfl⟩ := decode_ok_words h
  rw [encode, encodeWord_of_decode h, List.cons_append]

/-! ### The valid words -/

/-- The valid words are the instruction words of the instructions (rules R55 and R59). -/
theorem validWord_iff_exists_encodeWord : validWord w = true ↔ ∃ i, encodeWord i = w := by
  constructor
  · intro h
    obtain ⟨-, roles, hr, -, -⟩ := validWord_iff.1 h
    have hreads := decode_cons_readsAs h hr [0, 0, 0]
    match hd : decode (w :: [0, 0, 0]) with
    | .ok (i, rest) => exact ⟨i, encodeWord_of_decode hd⟩
    | .error r =>
      rw [hd] at hreads
      exact absurd (roles_length_le hr) (Nat.not_le.2 hreads.2)
  · rintro ⟨i, rfl⟩
    exact validWord_encodeWord i

/-- Settles O3: a valid word is an instruction's, and the modes of each opcode make its words. -/
theorem validWordsAreTheOpcodeMap : Obligations.ValidWordsAreTheOpcodeMap := by
  refine fun w => ⟨fun h => ?_, fun h => ?_⟩
  · obtain ⟨i, rfl⟩ := validWord_iff_exists_encodeWord.1 h
    cases i with
    | add m0 m1 m2 | mul m0 m1 m2 | lt m0 m1 m2 | eq m0 m1 m2 =>
      cases m0 <;> cases m1 <;> cases m2 <;> simp [encodeWord, encodeFields, Instr.fields, Mode.digit]
    | jt m0 m1 | jf m0 m1 => cases m0 <;> cases m1 <;> simp [encodeWord, encodeFields, Instr.fields, Mode.digit]
    | inp m0 | out m0 => cases m0 <;> simp [encodeWord, encodeFields, Instr.fields, Mode.digit]
    | halt => decide
  · revert w
    decide

/-- Settles O5: each list is the encoding of its instruction. -/
theorem sampleWordsDecode : Obligations.SampleWordsDecode :=
  ⟨decode_encode_append (.add .immediate .immediate .position 100 (-1) 4) [],
   decode_encode_append (.mul .position .immediate .position 4 3 4) [],
   decode_encode_append (.inp .immediate 2) [],
   decode_encode_append (.out .immediate (-7)) [],
   decode_encode_append (.jt .immediate .position 1 4) [],
   decode_encode_append (.jf .position .immediate 20 16) [],
   decode_encode_append (.lt .position .position .immediate 17 18 19) [],
   decode_encode_append (.eq .immediate .immediate .immediate 7 7 5) [],
   decode_encode_append .halt []⟩

end Sys2Proof

/-! ## Assembly -/

namespace Sys2Proof

@[simp] theorem AsmOperand.mode_ofMode (m : Mode) (p : Int) : (AsmOperand.ofMode m p).mode = m := by
  cases m <;> rfl

@[simp] theorem AsmOperand.word_ofMode (m : Mode) (p : Int) : (AsmOperand.ofMode m p).word = p := by
  cases m <;> rfl

/-- Settles O6: an operand written in a mode is read in that mode, and a target in position mode. -/
theorem reassemblyClearsOnlyTargetMode : Obligations.ReassemblyClearsOnlyTargetMode := by
  intro i
  cases i <;> simp [assemble, Instr.disassemble, Instr.canonical]

end Sys2Proof

/-! ## The mode of a write target -/

namespace Sys2Proof.Machine

theorem checkedResult_of_representable {width : Width} {r : Int} (h : width.Representable r) (ip w : Int) :
    checkedResult width ip w r = .ok r := if_pos h

/-- Where both operands resolve, a stored result depends on the computation only at their values. -/
theorem storeResultEffect_congr {vm : Vm} {m0 m1 : Mode} {p0 p1 a b : Int} {f g : Int → Int → Except VmErr Int}
    (ha : operand vm.mem m0 p0 = .ok a) (hb : operand vm.mem m1 p1 = .ok b) (hfg : f a b = g a b) (p2 : Int) :
    storeResultEffect m0 m1 p0 p1 p2 f vm = storeResultEffect m0 m1 p0 p1 p2 g vm := by
  unfold storeResultEffect resolveVVT
  rw [ha, hb]
  cases target vm.mem p2 with
  | error e => rfl
  | ok t => simp only [Except.bind, hfg]

/-- Settles O7: only the word an overflow reports holds the mode, and there is no overflow. -/
theorem targetModeHasNoEffect : Obligations.TargetModeHasNoEffect := by
  refine fun m0 m1 m2 m2' p0 p1 p2 s => ⟨rfl, rfl, rfl, fun k a b hk ha hb => ⟨fun hr => ?_, fun hr => ?_⟩⟩ <;>
    rw [exec_of_active hk, exec_of_active hk]
  · rw [effectOf_add, effectOf_add, storeResultEffect_congr ha hb]
    simp only [checkedResult_of_representable hr]
  · rw [effectOf_mul, effectOf_mul, storeResultEffect_congr ha hb]
    simp only [checkedResult_of_representable hr]

/-! ## Fetches the decoder rejects -/

variable {vm : Vm} {w : Int}

/-- The words from a readable address on begin with the word read there. -/
theorem Memory.drop_of_read {m : Memory} {a : Int} (h : m.read a = .ok w) :
    m.drop a.toNat = w :: m.drop (a.toNat + 1) := by
  obtain ⟨hb, rfl, -⟩ := Memory.read_ok m a h
  have hlt := Memory.toNat_lt m a hb
  rw [List.drop_eq_getElem_cons hlt, List.getD_eq_getElem m 0 hlt]

/-- A fetch at a readable address faults as the decoder rejects. -/
theorem Vm.fetch_of_decode_error (h : vm.mem.read vm.ip = .ok w) {r : Reject}
    (hd : decode (w :: vm.mem.drop (vm.ip.toNat + 1)) = .error r) : vm.fetch = .error (rejectErr vm.ip r) := by
  obtain ⟨hb, -, -⟩ := Memory.read_ok _ _ h
  unfold Vm.fetch
  rw [if_pos hb, Memory.drop_of_read h, hd]

/-- Settles O26: the decoder rejects the word. -/
theorem invalidWordFaults : Obligations.InvalidWordFaults := by
  intro s k w hsilent ha hread hw
  have hfetch := Vm.fetch_of_decode_error hread (decode_of_not_validWord hw)
  rw [step_of_active hsilent ha, Vm.next_of_fetch_error hfetch]
  rfl

/-- Settles O27: the words that are there end at `L`, where the first missing parameter would stand. -/
theorem missingParameterFaults : Obligations.MissingParameterFaults := by
  intro s k w roles hsilent ha hread hw hroles hlen
  obtain ⟨⟨h0, hlt⟩, -, -⟩ := Memory.read_ok _ _ hread
  have hfetch := Vm.fetch_of_decode_error hread
    (decode_of_missing hw hroles (by rw [List.length_drop]; omega))
  have haddr : (s.vm k).ip + 1 + ((s.vm k).mem.drop ((s.vm k).ip.toNat + 1)).length = (s.vm k).mem.length := by
    rw [List.length_drop]; omega
  rw [step_of_active hsilent ha, Vm.next_of_fetch_error hfetch, rejectErr, haddr]
  rfl

end Sys2Proof.Machine

/-! # Proofs of the execution-engine family (`40_execution_engine.md`)

How operands resolve, and which of them reports its fault; the step read off a decoded instruction; the
machine's step beside the spec's reference step; and the steps that the host's moves come between. -/

/-! ## Operands and targets -/

namespace Sys2Proof.Machine

variable {s : State} {k : Nat} {i : Instr} {p : Params} {vm : Vm} {m : Memory} {a v : Int} {e : VmErr}
  {md m0 m1 m2 : Mode} {p0 p1 p2 : Int}

theorem target_of_not_inBounds (h : ¬ m.InBounds a) : target m a = .error (.outOfBounds a) := if_neg h

theorem operand_of_not_inBounds (hmd : md = .position) (h : ¬ m.InBounds a) :
    operand m md a = .error (.outOfBounds a) := by
  rw [hmd]
  exact Memory.read_of_not_inBounds m a h

/-- Settles O9: a position operand is a read of memory, and a target a bounds check. -/
theorem operandsResolveByMode : Obligations.OperandsResolveByMode := by
  refine fun m p => ⟨fun x hb hx => ?_, operand_of_not_inBounds rfl, rfl, target_of_inBounds m p,
    target_of_not_inBounds⟩
  have hread : m.read p = .ok (m.getD p.toNat 0) := Memory.read_of_inBounds m p hb
  rw [operand, hread, List.getD_eq_getElem?_getD, hx, Option.getD_some]

/-! ## The fault of an instruction -/

/-- An instruction whose effect faults raises that fault and does nothing else (rule R69). -/
theorem exec_of_effect_error (ha : s.active = some k) (h : effectOf i s.params (s.vm k) = .error e) :
    exec i s = .next (s.commitVm k ((s.vm k).raise e)) := by
  rw [exec_of_active ha, h]
  rfl

theorem effectOf_arithmetic
    (hi : i = .add m0 m1 m2 p0 p1 p2 ∨ i = .mul m0 m1 m2 p0 p1 p2 ∨
      i = .lt m0 m1 m2 p0 p1 p2 ∨ i = .eq m0 m1 m2 p0 p1 p2) (p : Params) (vm : Vm) :
    ∃ f, effectOf i p vm = storeResultEffect m0 m1 p0 p1 p2 f vm := by
  rcases hi with rfl | rfl | rfl | rfl
  · exact ⟨_, effectOf_add ..⟩
  · exact ⟨_, effectOf_mul ..⟩
  · exact ⟨_, effectOf_lt ..⟩
  · exact ⟨_, effectOf_eq ..⟩

theorem effectOf_jump (hi : i = .jt m0 m1 p0 p1 ∨ i = .jf m0 m1 p0 p1) (p : Params) (vm : Vm) :
    ∃ taken, effectOf i p vm = jumpEffect m0 m1 p0 p1 taken vm := by
  rcases hi with rfl | rfl
  · exact ⟨_, effectOf_jt ..⟩
  · exact ⟨_, effectOf_jf ..⟩

/-- Settles O10: the fault of the four is that of resolving `V V T`, whose parts come in ascending order. -/
theorem firstFailingOperandIsReported : Obligations.FirstFailingOperandIsReported := by
  intro s k m0 m1 m2 p0 p1 p2 i ha hi
  obtain ⟨f, heff⟩ := effectOf_arithmetic hi s.params (s.vm k)
  have hfault : ∀ a, resolveVVT (s.vm k).mem m0 m1 p0 p1 p2 = .error (.outOfBounds a) →
      exec i s = .next (s.commitVm k ((s.vm k).raise (.outOfBounds a))) := fun a hr =>
    exec_of_effect_error ha (heff.trans ((storeResultEffect_error ..).2 (.inl hr)))
  refine ⟨fun hm0 h0 => hfault p0 ?_, fun h0 hm1 h1 => hfault p1 ?_, fun h0 h1 h2 => hfault p2 ?_⟩ <;>
    rw [resolveVVT_error]
  · exact .inl (operand_of_not_inBounds hm0 h0)
  · obtain ⟨a, hop0⟩ := operand_isOk (s.vm k).mem p0 m0 h0
    exact .inr (.inl ⟨a, hop0, operand_of_not_inBounds hm1 h1⟩)
  · obtain ⟨a, hop0⟩ := operand_isOk (s.vm k).mem p0 m0 h0
    obtain ⟨b, hop1⟩ := operand_isOk (s.vm k).mem p1 m1 h1
    exact .inr (.inr ⟨a, b, hop0, hop1, target_of_not_inBounds h2⟩)

/-- Settles O18: the fault of JT and JF is that of resolving `V J`, which no condition enters. -/
theorem jumpOperandsAreAlwaysChecked : Obligations.JumpOperandsAreAlwaysChecked := by
  intro s k m0 m1 p0 p1 i ha hi
  obtain ⟨taken, heff⟩ := effectOf_jump hi s.params (s.vm k)
  have hfault : ∀ a, resolveVJ (s.vm k).mem m0 m1 p0 p1 = .error (.outOfBounds a) →
      exec i s = .next (s.commitVm k ((s.vm k).raise (.outOfBounds a))) := fun a hr =>
    exec_of_effect_error ha (heff.trans ((jumpEffect_error ..).2 hr))
  refine ⟨fun hm0 h0 => hfault p0 ?_, fun h0 hm1 h1 => hfault p1 ?_⟩ <;> rw [resolveVJ_error]
  · exact .inl (operand_of_not_inBounds hm0 h0)
  · obtain ⟨a, hop0⟩ := operand_isOk (s.vm k).mem p0 m0 h0
    exact .inr ⟨a, hop0, operand_of_not_inBounds hm1 h1⟩

/-! ### OUT -/

theorem outEffect_of_operand_error (h : operand vm.mem m0 p0 = .error e) : outEffect m0 p0 p vm = .error e := by
  unfold outEffect
  rw [h]
  rfl

theorem outEffect_of_full (h : operand vm.mem m0 p0 = .ok v) (hq : queueFull p.qCap vm.outQ = true) :
    outEffect m0 p0 p vm = .error ⟨.queueOverflow, vm.ip, encodeWord (.out m0 p0)⟩ := by
  unfold outEffect
  rw [h]
  exact if_pos hq

theorem outEffect_of_room (h : operand vm.mem m0 p0 = .ok v) (hq : queueFull p.qCap vm.outQ = false) :
    outEffect m0 p0 p vm = .ok { vm with
      outQ := push vm.outQ v
      ip := vm.ip + 2
      state := if p.yieldOnOutput then .yielded else vm.state } := by
  unfold outEffect
  rw [h]
  exact if_neg (by simp [hq])

/-- Settles O16: with room in the queue the parameter `YIELD_ON_OUTPUT` alone decides whether the VM is
still `Running`, and so whether it is put back with no answer. -/
theorem outAppendsOrOverflows : Obligations.OutAppendsOrOverflows := by
  refine ⟨fun s k p0 ha hb => ?_, fun s k m0 p0 v ha hv =>
    ⟨fun hq hy => ?_, fun hq hy => ?_, fun hq => ?_⟩⟩
  · exact exec_of_effect_error ha (outEffect_of_operand_error (operand_of_not_inBounds rfl hb))
  · rw [exec_of_active ha, effectOf_out, outEffect_of_room hv hq, hy]
    exact congrArg _ (State.commitVm_of_active ha rfl)
  · rw [exec_of_active ha, effectOf_out, outEffect_of_room hv hq, hy]
    rfl
  · exact exec_of_effect_error ha (outEffect_of_full hv hq)

end Sys2Proof.Machine

/-! ## The step of a decoded instruction -/

namespace Sys2Proof.Machine

variable {s t : State} {k : Nat} {i : Instr} {vm : Vm} {rest : List Int}

theorem Vm.fetch_of_decode (hb : vm.mem.InBounds vm.ip)
    (hd : decode (vm.mem.drop vm.ip.toNat) = .ok (i, rest)) : vm.fetch = .ok i := by
  unfold Vm.fetch
  rw [if_pos hb, hd]

/-- A block step that the host lets pass before its further moves. -/
theorem step_of_blockStep {moves : List HostMove} (h : s.hostMoves = .blockStep :: moves) :
    step s = { s with hostMoves := moves }.blockStep := by
  unfold step
  rw [h]

/-- The block step executes the instruction the active VM fetches (rule R69). -/
theorem State.blockStep_of_fetch (ha : s.active = some k) (hf : (s.vm k).fetch = .ok i) :
    s.blockStep = exec i s := by
  unfold State.blockStep State.vmStep
  rw [ha]
  dsimp only
  rw [hf]

/-- Settles O24: the fetch is the decoder's answer, and neither it nor the active VM depends on the host's
moves. -/
theorem stepRunsDecodedInstruction : Obligations.StepRunsDecodedInstruction := by
  intro s k i rest ha hb hd
  have hf : (s.vm k).fetch = .ok i := Vm.fetch_of_decode hb hd
  refine ⟨fun hsilent => ?_, fun moves hm => ?_⟩
  · rw [step_of_hostSilent hsilent, State.blockStep_of_fetch ha hf]
  · rw [step_of_blockStep hm, State.blockStep_of_fetch (s := { s with hostMoves := moves }) ha hf]

/-! ## Every step has a next state -/

theorem State.blockStep_next (s : State) : ∃ t, s.blockStep = .next t := by
  rcases s.blockStep_cases with ⟨k, -, hs⟩ | ⟨-, hs⟩
  · exact ⟨_, hs⟩
  · exact ⟨_, hs⟩

/-- Settles O30: a transaction answers a next state, and so does every block step. -/
theorem stepAlwaysAnswersNext : Obligations.StepAlwaysAnswersNext := by
  intro s
  match hm : s.hostMoves with
  | .transaction tx :: rest => exact ⟨_, step_of_transaction hm⟩
  | .blockStep :: rest =>
    rw [step_of_blockStep hm]
    exact State.blockStep_next _
  | [] =>
    rw [step_of_hostSilent hm]
    exact s.blockStep_next

end Sys2Proof.Machine

/-! ## The reference step (rule R77) -/

namespace Sys2Proof

/-- The roles of an instruction's parameters (rule R62). -/
def Instr.roles : Instr → List Role
  | .add .. | .mul .. | .lt .. | .eq .. => [.value, .value, .target]
  | .inp .. => [.target]
  | .out .. => [.value]
  | .jt .. | .jf .. => [.value, .jump]
  | .halt => []

theorem rolesOf_opcode (i : Instr) : rolesOf i.fields.opcode = some i.roles := by
  cases i <;> rfl

theorem Instr.roles_length (i : Instr) : i.roles.length = i.params.length := by
  cases i <;> rfl

end Sys2Proof

namespace Sys2Proof.Machine

variable {p : Params} {vm : Vm} {m : Memory} {ip w : Int} {i : Instr}

/-! ### The parameter words -/

/-- Where the words of memory from parameter `k` on begin with `qs`, those are the parameters read. -/
theorem refParams_of_drop (hip : 0 ≤ ip) {qs rest : List Int} {k : Nat}
    (h : m.drop (ip + 1 + k).toNat = qs ++ rest) : refParams m ip k qs.length = .ok qs := by
  induction qs generalizing k with
  | nil => rfl
  | cons q qs ih =>
    have hlt : (ip + 1 + k).toNat < m.length := by
      by_contra hge
      simp [List.drop_eq_nil_of_le (Nat.le_of_not_lt hge)] at h
    rw [List.drop_eq_getElem_cons hlt, List.cons_append, List.cons.injEq] at h
    obtain ⟨hq, hqs⟩ := h
    have hnext : (ip + 1 + (k + 1 : Nat)).toNat = (ip + 1 + k).toNat + 1 := by omega
    rw [List.length_cons, refParams, if_neg (by omega), ih (by rw [hnext, hqs]),
      List.getD_eq_getElem m 0 hlt, hq]
    rfl

/-- Where memory ends before the last parameter, the read faults at the end of memory (rule R72). -/
theorem refParams_of_missing {k n : Nat} (hk : ip + 1 + k ≤ m.length) (hn : m.length < ip + 1 + k + n) :
    refParams m ip k n = .error (.outOfBounds m.length) := by
  induction n generalizing k with
  | zero => omega
  | succ n ih =>
    rw [refParams]
    split
    · next hend => rw [Int.le_antisymm hk hend]
    · rw [ih (by omega) (by omega)]
      rfl

/-! ### The operands -/

variable {k : Nat} {role : Role} {roles : List Role} {q : Int} {qs : List Int}

theorem refResolve_target :
    refResolve m w k (.target :: roles) (q :: qs) =
      (target m q).bind fun a => (refResolve m w (k + 1) roles qs).map (a :: ·) := by
  unfold target
  by_cases hb : m.InBounds q
  · rw [refResolve, if_pos rfl, if_neg (by omega), if_pos hb]
    rfl
  · rw [refResolve, if_pos rfl, if_pos (by omega), if_neg hb]
    rfl

/-- A value operand or jump target whose mode digit is that of `md` resolves in the mode `md`. -/
theorem refResolve_operand {md : Mode} (hrole : role ≠ .target) (hmd : modeDigit k w = md.digit) :
    refResolve m w k (role :: roles) (q :: qs) =
      (operand m md q).bind fun a => (refResolve m w (k + 1) roles qs).map (a :: ·) := by
  rw [refResolve, if_neg hrole, hmd]
  cases md with
  | immediate => rfl
  | position =>
    rw [if_pos (show Mode.position.digit = 0 from rfl), operand]
    by_cases hb : m.InBounds q
    · rw [if_neg (by omega), Memory.read_of_inBounds m q hb]
      rfl
    · rw [if_pos (by omega), Memory.read_of_not_inBounds m q hb]
      rfl

variable {m0 m1 : Mode} {p0 p1 p2 : Int}

theorem refResolve_vvt (h0 : modeDigit 0 w = m0.digit) (h1 : modeDigit 1 w = m1.digit) :
    refResolve m w 0 [.value, .value, .target] [p0, p1, p2] =
      (resolveVVT m m0 m1 p0 p1 p2).map fun x => [x.1, x.2.1, x.2.2] := by
  rw [refResolve_operand (by decide) h0, refResolve_operand (by decide) h1, refResolve_target, resolveVVT]
  cases operand m m0 p0 <;> cases operand m m1 p1 <;> cases target m p2 <;> rfl

theorem refResolve_vj (h0 : modeDigit 0 w = m0.digit) (h1 : modeDigit 1 w = m1.digit) :
    refResolve m w 0 [.value, .jump] [p0, p1] = (resolveVJ m m0 m1 p0 p1).map fun x => [x.1, x.2] := by
  rw [refResolve_operand (by decide) h0, refResolve_operand (by decide) h1, resolveVJ]
  cases operand m m0 p0 <;> cases operand m m1 p1 <;> rfl

theorem refResolve_v (h0 : modeDigit 0 w = m0.digit) :
    refResolve m w 0 [.value] [p0] = (operand m m0 p0).map fun a => [a] := by
  rw [refResolve_operand (by decide) h0]
  cases operand m m0 p0 <;> rfl

theorem refResolve_t : refResolve m w 0 [.target] [p0] = (target m p0).map fun a => [a] := by
  rw [refResolve_target]
  cases target m p0 <;> rfl

/-! ### The cases of the opcodes -/

/-- What the reference makes of a VM that has read the instruction `i`: its operands resolved, and the case
of its opcode. -/
def refEffect (p : Params) (vm : Vm) (i : Instr) : Except VmErr Vm :=
  (refResolve vm.mem (encodeWord i) 0 i.roles i.params).map
    (refCase p vm (encodeWord i) i.fields.opcode)

/-- Instructions of the shape `V V T` agree with the reference when their computations do. -/
theorem settle_storeResult {f : Int → Int → Except VmErr Int} {g : List Int → Vm}
    (h0 : modeDigit 0 w = m0.digit) (h1 : modeDigit 1 w = m1.digit)
    (h : ∀ a b t, vm.settle ((f a b).map fun r => vm.storeAndAdvance t r 4) = g [a, b, t]) :
    vm.settle (storeResultEffect m0 m1 p0 p1 p2 f vm) =
      vm.settle ((refResolve vm.mem w 0 [.value, .value, .target] [p0, p1, p2]).map g) := by
  rw [refResolve_vvt h0 h1, storeResultEffect]
  cases resolveVVT vm.mem m0 m1 p0 p1 p2 with
  | error e => rfl
  | ok x => exact h x.1 x.2.1 x.2.2

theorem settle_checkedResult {width : Width} {t r : Int} :
    vm.settle ((checkedResult width vm.ip w r).map fun x => vm.storeAndAdvance t x 4) =
      if width.Representable r then { vm with mem := vm.mem.set t.toNat r, ip := vm.ip + 4 }
      else vm.raise ⟨.overflow, vm.ip, w⟩ := by
  unfold checkedResult
  split <;> rfl

theorem settle_jump {taken : Int → Bool} {g : List Int → Vm}
    (h0 : modeDigit 0 w = m0.digit) (h1 : modeDigit 1 w = m1.digit)
    (h : ∀ c t, { vm with ip := if taken c then t else vm.ip + 3 } = g [c, t]) :
    vm.settle (jumpEffect m0 m1 p0 p1 taken vm) =
      vm.settle ((refResolve vm.mem w 0 [.value, .jump] [p0, p1]).map g) := by
  rw [refResolve_vj h0 h1, jumpEffect]
  cases resolveVJ vm.mem m0 m1 p0 p1 with
  | error e => rfl
  | ok x => exact h x.1 x.2

theorem settle_in :
    vm.settle (inEffect p0 vm) = vm.settle ((refResolve vm.mem w 0 [.target] [p0]).map (refCase p vm w 3)) := by
  rw [refResolve_t, inEffect]
  cases target vm.mem p0 with
  | error e => rfl
  | ok t =>
    cases hq : vm.inQ <;>
      simp [Except.bind, Except.map, Vm.settle, refCase, hq, Vm.storeAndAdvance, Memory.store]

theorem settle_out (hw : w = encodeWord (.out m0 p0)) (h0 : modeDigit 0 w = m0.digit) :
    vm.settle (outEffect m0 p0 p vm) =
      vm.settle ((refResolve vm.mem w 0 [.value] [p0]).map (refCase p vm w 4)) := by
  rw [refResolve_v h0]
  cases ho : operand vm.mem m0 p0 with
  | error e =>
    rw [outEffect_of_operand_error ho]
    rfl
  | ok a =>
    cases hq : queueFull p.qCap vm.outQ with
    | true =>
      rw [outEffect_of_full ho hq, ← hw]
      simp [Except.map, Vm.settle, refCase, hq]
    | false =>
      rw [outEffect_of_room ho hq]
      simp [Except.map, Vm.settle, refCase, hq, push]

/-- The meaning of every instruction but HALT is the reference's. -/
theorem settle_effectOf (hi : i ≠ .halt) : vm.settle (effectOf i p vm) = vm.settle (refEffect p vm i) := by
  have h0 : modeDigit 0 (encodeWord i) = i.fields.mode0 := congrArg Fields.mode0 (decodeFields_encodeWord i)
  have h1 : modeDigit 1 (encodeWord i) = i.fields.mode1 := congrArg Fields.mode1 (decodeFields_encodeWord i)
  unfold refEffect
  cases i with
  | add | mul =>
    simp only [effectOf_add, effectOf_mul, Instr.roles, Instr.params]
    exact settle_storeResult h0 h1 fun _ _ _ => settle_checkedResult
  | lt | eq =>
    simp only [effectOf_lt, effectOf_eq, Instr.roles, Instr.params]
    exact settle_storeResult h0 h1 fun _ _ _ => rfl
  | inp => exact settle_in
  | out => exact settle_out rfl h0
  | jt | jf =>
    simp only [effectOf_jt, effectOf_jf, Instr.roles, Instr.params]
    exact settle_jump h0 h1 fun c t => by simp [refCase, Instr.fields]
  | halt => exact absurd rfl hi

/-! ### The whole step -/

theorem refStep_of_not_inBounds (h : ¬ vm.mem.InBounds vm.ip) : refStep p vm = vm.raise (.outOfBounds vm.ip) :=
  if_pos (by omega)

theorem refStep_of_read (h : vm.mem.read vm.ip = .ok w) : refStep p vm =
    if validWord w = false then vm.raise ⟨.invalidInstruction, vm.ip, w⟩
    else if opcodeOf w = 99 then { vm with state := .halted }
    else
      vm.settle ((refParams vm.mem vm.ip 0 ((rolesOf (opcodeOf w)).getD []).length).bind fun ps =>
        (refResolve vm.mem w 0 ((rolesOf (opcodeOf w)).getD []) ps).map (refCase p vm w (opcodeOf w))) := by
  obtain ⟨hb, rfl, -⟩ := Memory.read_ok _ _ h
  unfold refStep
  rw [if_neg (by omega)]
  dsimp only [decodeFields]
  congr 2
  cases refParams vm.mem vm.ip 0 ((rolesOf (opcodeOf (vm.mem.getD vm.ip.toNat 0))).getD []).length with
  | error e => rfl
  | ok ps =>
    dsimp only [Except.bind]
    cases refResolve vm.mem _ 0 _ ps <;> rfl

theorem fields_opcode_eq_99 : i.fields.opcode = 99 ↔ i = .halt := by
  cases i <;> simp [Instr.fields]

/-- Memory ends before the last parameter: the fetch and the reference's first loop fault alike. -/
theorem Vm.next_eq_refStep_of_missing (hread : vm.mem.read vm.ip = .ok w) (hv : validWord w = true)
    (hr : rolesOf (opcodeOf w) = some roles) (hlt : (vm.mem.drop (vm.ip.toNat + 1)).length < roles.length) :
    vm.next p = refStep p vm := by
  obtain ⟨hb, -, -⟩ := Memory.read_ok _ _ hread
  have hlen := List.length_drop (i := vm.ip.toNat + 1) (l := vm.mem)
  have hne : opcodeOf w ≠ 99 := by
    intro hop
    rw [hop] at hr
    cases hr
    exact Nat.not_lt_zero _ hlt
  have haddr : vm.ip + 1 + (vm.mem.drop (vm.ip.toNat + 1)).length = vm.mem.length := by omega
  have hparams : refParams vm.mem vm.ip 0 roles.length = .error (.outOfBounds vm.mem.length) :=
    refParams_of_missing (by omega) (by omega)
  rw [Vm.next_of_fetch_error (Vm.fetch_of_decode_error hread (decode_of_missing hv hr hlt)), rejectErr, haddr,
    refStep_of_read hread, if_neg (by simp [hv]), if_neg hne, hr, Option.getD_some, hparams]
  rfl

/-- An instruction is fetched: the reference reads its parameters, and makes of the VM what its meaning
does. -/
theorem Vm.next_eq_refStep_of_decode {rest : List Int} (hread : vm.mem.read vm.ip = .ok w)
    (hd : decode (w :: vm.mem.drop (vm.ip.toNat + 1)) = .ok (i, rest)) : vm.next p = refStep p vm := by
  obtain ⟨hb, -, -⟩ := Memory.read_ok _ _ hread
  have hfetch : vm.fetch = .ok i := Vm.fetch_of_decode hb (Memory.drop_of_read hread ▸ hd)
  have hnext : vm.next p = vm.settle (effectOf i p vm) := by unfold Vm.next; rw [hfetch]
  obtain rfl : encodeWord i = w := encodeWord_of_decode hd
  have hop : opcodeOf (encodeWord i) = i.fields.opcode := congrArg Fields.opcode (decodeFields_encodeWord i)
  rw [hnext, refStep_of_read hread, if_neg (by simp [validWord_encodeWord]), hop]
  by_cases hhalt : i = .halt
  · subst hhalt
    rfl
  have hwords : vm.mem.drop (vm.ip + 1 + (0 : Nat)).toNat = i.params ++ rest := by
    have htaken := decode_cons_takenFrom (encodeWord i) (vm.mem.drop (vm.ip.toNat + 1))
    rw [hd] at htaken
    rw [← htaken]
    congr 1
    omega
  have hparams : refParams vm.mem vm.ip 0 i.roles.length = .ok i.params := by
    rw [Instr.roles_length]
    exact refParams_of_drop hb.1 hwords
  rw [if_neg (mt fields_opcode_eq_99.1 hhalt), rolesOf_opcode, Option.getD_some, hparams, settle_effectOf hhalt]
  rfl

theorem Vm.next_eq_refStep (p : Params) (vm : Vm) : vm.next p = refStep p vm := by
  by_cases hb : vm.mem.InBounds vm.ip
  case neg => rw [Vm.next_of_fetch_error (Vm.fetch_of_not_inBounds hb), refStep_of_not_inBounds hb]
  obtain ⟨w, hread⟩ : ∃ w, vm.mem.read vm.ip = .ok w := ⟨_, Memory.read_of_inBounds _ _ hb⟩
  cases hv : validWord w with
  | false =>
    rw [Vm.next_of_fetch_error (Vm.fetch_of_decode_error hread (decode_of_not_validWord hv)),
      refStep_of_read hread, if_pos hv]
    rfl
  | true =>
    obtain ⟨-, roles, hr, -, -⟩ := validWord_iff.1 hv
    match hd : decode (w :: vm.mem.drop (vm.ip.toNat + 1)) with
    | .ok (i, rest) => exact Vm.next_eq_refStep_of_decode hread hd
    | .error r =>
      have hreads := decode_cons_readsAs hv hr (vm.mem.drop (vm.ip.toNat + 1))
      rw [hd] at hreads
      exact Vm.next_eq_refStep_of_missing hread hv hr hreads.2

/-- Settles O29: the step of the active VM is put back, and as a step of the VM it is the reference's. -/
theorem stepIsReferenceStep : Obligations.StepIsReferenceStep := by
  intro s k hsilent ha
  rw [step_of_active hsilent ha, Vm.next_eq_refStep]

end Sys2Proof.Machine

/-! ## Block steps before further host moves -/

namespace Sys2Proof.Machine

variable {s t : State} {moves : List HostMove}

/-- The block, with other moves of the host to come. -/
def State.withMoves (s : State) (moves : List HostMove) : State := { s with hostMoves := moves }

@[simp] theorem State.withMoves_netState : (s.withMoves moves).netState = s.netState := rfl
@[simp] theorem State.withMoves_active : (s.withMoves moves).active = s.active := rfl

/-! ### No action of the block reads or writes the host's moves -/

theorem State.withMoves_ite (c : Prop) [Decidable c] :
    (if c then s else t).withMoves moves = if c then s.withMoves moves else t.withMoves moves :=
  apply_ite (·.withMoves moves) c s t

theorem State.send_withMoves : (s.withMoves moves).send = s.send.withMoves moves := by
  unfold State.send
  rw [State.withMoves_ite]
  rfl

theorem State.nextTurn_withMoves : (s.withMoves moves).nextTurn = s.nextTurn.withMoves moves := by
  unfold State.nextTurn
  rw [State.withMoves_ite]
  rfl

theorem State.passEnd_withMoves : (s.withMoves moves).passEnd = s.passEnd.withMoves moves := by
  unfold State.passEnd
  rw [State.withMoves_ite]
  rfl

theorem State.collect_withMoves : (s.withMoves moves).collect = s.collect.withMoves moves := by
  rcases s.collect_cases with ⟨hf, h⟩ | ⟨hf, x, rest, hq, h⟩ | ⟨hh, hq, h⟩ | ⟨hf, hh, hq, h⟩ <;> rw [h]
  · exact State.collect_of_faulted (s := s.withMoves moves) hf
  · rw [← State.nextTurn_withMoves]
    exact State.collect_of_output (s := s.withMoves moves) hf hq
  · rw [← State.nextTurn_withMoves]
    exact State.collect_of_drained (s := s.withMoves moves) hh hq
  · exact State.collect_of_starved (s := s.withMoves moves) hf hh hq

theorem State.orchestrate_withMoves : (s.withMoves moves).orchestrate = s.orchestrate.withMoves moves := by
  unfold State.orchestrate
  rw [State.withMoves_netState]
  cases s.netState with
  | turnSend => exact State.send_withMoves
  | turnCollect => exact State.collect_withMoves
  | passEnd => exact State.passEnd_withMoves
  | turnRun | idle | done | error => rfl

theorem State.commitVm_withMoves (k : Nat) (v : Vm) :
    (s.withMoves moves).commitVm k v = (s.commitVm k v).withMoves moves := by
  unfold State.commitVm
  rw [State.withMoves_ite]
  rfl

theorem State.blockStep_of_active {k : Nat} (ha : s.active = some k) :
    s.blockStep = .next (s.commitVm k ((s.vm k).next s.params)) := by
  unfold State.blockStep
  rw [ha]
  exact State.vmStep_of_active ha

theorem State.blockStep_of_no_active (ha : s.active = none) : s.blockStep = .next s.orchestrate := by
  unfold State.blockStep
  rw [ha]

/-- The moves that wait are no part of a block step (rule R112). -/
theorem State.blockStep_withMoves (h : s.blockStep = .next t) :
    (s.withMoves moves).blockStep = .next (t.withMoves moves) := by
  rcases s.blockStep_cases with ⟨k, ha, hs⟩ | ⟨ha, hs⟩ <;> cases hs.symm.trans h
  · rw [← State.commitVm_withMoves]
    exact State.blockStep_of_active (s := s.withMoves moves) ha
  · rw [← State.orchestrate_withMoves]
    exact State.blockStep_of_no_active ha

/-- Settles O59: both steps are the block step of `s`, each with its own moves to come. -/
theorem blockStepLeavesHostMoves : Obligations.BlockStepLeavesHostMoves := by
  intro s rest hm
  obtain ⟨t, ht⟩ := s.blockStep_next
  have hwith : ∀ moves, (s.withMoves moves).blockStep = .next (t.withMoves moves) := fun _ =>
    State.blockStep_withMoves ht
  exact ⟨t.withMoves [], (step_of_hostSilent rfl).trans (hwith []), rfl,
    (step_of_blockStep hm).trans (hwith rest)⟩

end Sys2Proof.Machine

/-! ## Terminal VMs -/

namespace Sys2Proof.Machine

/-- A visit to a `Halted` or `Faulted` VM changes its queues at most (rule R81). -/
theorem Vm.Visited.sameCore {a b : Vm} (h : a.Visited b) (ha : a.state.Terminal) : a.SameCore b := by
  have hstate : b.state = a.state := by simpa [Vm.call_of_terminal ha] using h.state
  exact ⟨h.mem.symm, h.ip.symm, hstate.symm, h.err.symm⟩

/-- Settles O34: a terminal VM is not the active one, and every other step visits it at most. -/
theorem terminalVmsStay : Obligations.TerminalVmsStay := by
  intro s t i ht hterm hreset hstart
  rcases step_cases ht with ⟨tx, rest, hm, rfl⟩ | ⟨moves, hs⟩
  · have htx : tx ≠ .reset ∧ tx ≠ .start :=
      ⟨fun h => hreset rest (h ▸ hm), fun h => hstart rest (h ▸ hm)⟩
    exact (State.visited_transact (s := { s with hostMoves := rest }) htx.1 htx.2 i).sameCore hterm
  · rcases State.blockStep_vm hs i with ⟨ha, -⟩ | ⟨-, hv⟩
    · have hrun : (s.vm i).state = .running := State.active_running ha
      rw [hrun] at hterm
      rcases hterm with h | h <;> cases h
    · exact hv.sameCore hterm

end Sys2Proof.Machine

/-! ## The visited VM of a network run -/

namespace Sys2Proof.Machine

variable {s : State}

theorem State.active_of_turnRun_stopped (hn : s.netState = .turnRun) (hr : (s.vm s.turn).state ≠ .running) :
    s.active = none := by
  simp [State.active, hn, hr]

theorem State.orchestrate_of_turnRun (hn : s.netState = .turnRun) : s.orchestrate = s.endRun := by
  unfold State.orchestrate
  rw [hn]

/-- Settles O41: in `TURN_RUN` the active VM is the visited one, put back with no answer; with none active
the orchestrator ends the run. -/
theorem runStepsOnlyTheVisitedVm : Obligations.RunStepsOnlyTheVisitedVm := by
  intro s hsilent hn
  refine ⟨fun hr => ?_, fun hr => ?_⟩
  · have ha := State.active_of_turnRun hn hr
    have hstep := step_of_active hsilent ha
    obtain ⟨hblock, hothers, -⟩ := s.onlyVm_commitVm s.turn ((s.vm s.turn).next s.params)
    refine ⟨_, hstep, hstep.trans (State.vmStep_of_active ha).symm, hblock, ?_, hothers⟩
    rw [State.commitVm_of_turnRun _ _ hn, State.setVm_hostAnswers]
  · rw [step_of_no_active hsilent (State.active_of_turnRun_stopped hn hr), State.orchestrate_of_turnRun hn]
    rfl

end Sys2Proof.Machine

/-! ## RUN -/

namespace Sys2Proof.Machine

variable {s : State} {rest : List HostMove}

/-- RUN in standalone mode on a VM that has been constructed and is not `Running`. -/
theorem step_run (hm : s.hostMoves = .transaction .run :: rest) (hmode : s.blkMode = .standalone)
    (hrun : (s.vm 0).state ≠ .running) (habsent : (s.vm 0).state ≠ .absent)
    (hidle : s.usesVm .run = true → s.netState = .idle) :
    step s = .next { s with hostMoves := rest }.doRun := by
  have hnone : { s with hostMoves := rest }.refusal .run = none := by
    rw [State.refusal_with_hostMoves, State.refusal_run, State.standaloneRefusal_eq_none.2 ⟨hmode, hrun, hidle⟩,
      Option.none_or, if_neg habsent]
  rw [step_of_transaction hm, transact_of_allowed hnone]
  rfl

theorem State.doRun_of_resumable (h : (s.vm 0).state ∈ [VmState.ready, .awaitingInput, .yielded]) :
    s.doRun = s.setVm 0 { s.vm 0 with state := .running } := by
  have hcall : (s.vm 0).call = { s.vm 0 with state := .running } := by
    rw [Vm.call_eq, Vm.call_state, if_pos (by simpa using h)]
  unfold State.doRun
  rw [hcall]
  exact if_pos rfl

theorem State.doRun_of_terminal (h : (s.vm 0).state.Terminal) : s.doRun = s.answer (.ran (s.vm 0).state) := by
  unfold State.doRun
  rw [Vm.call_of_terminal h]
  exact if_neg (by rcases h with h | h <;> simp [h])

/-- Settles O53: RUN is allowed in both cases; only the first would execute `VM[0]`, and so needs `IDLE`. -/
theorem runResumesOrReturnsAtOnce : Obligations.RunResumesOrReturnsAtOnce := by
  intro s rest hm hmode
  refine ⟨fun hn hst => ?_, fun hterm => ?_⟩
  · have hstopped : (s.vm 0).state ≠ .running ∧ (s.vm 0).state ≠ .absent :=
      ⟨fun h => by simp [h] at hst, fun h => by simp [h] at hst⟩
    rw [step_run hm hmode hstopped.1 hstopped.2 fun _ => hn]
    exact congrArg _ (State.doRun_of_resumable (s := { s with hostMoves := rest }) hst)
  · have hstopped : (s.vm 0).state ≠ .running ∧ (s.vm 0).state ≠ .absent := by
      rcases hterm with h | h <;> simp [h]
    have huses : s.usesVm .run = true → s.netState = .idle := fun h => by
      rw [State.usesVm_run hstopped.1] at h
      rcases hterm with ht | ht <;> simp [ht] at h
    rw [step_run hm hmode hstopped.1 hstopped.2 huses]
    exact congrArg _ (State.doRun_of_terminal (s := { s with hostMoves := rest }) hterm)

end Sys2Proof.Machine

/-! ## An empty program image (rule R144) -/

namespace Sys2Proof.Machine

variable {s : State} {k : Nat}

/-- A VM with no memory faults at its fetch, whatever its `ip`. -/
theorem step_of_empty_memory (hsilent : s.HostSilent) (ha : s.active = some k) (hmem : (s.vm k).mem = []) :
    step s = .next (s.commitVm k ((s.vm k).raise (.outOfBounds (s.vm k).ip))) := by
  refine fetchOutsideMemoryFaults s k hsilent ha ?_
  rw [hmem]
  rintro ⟨h0, h1⟩
  simp only [List.length_nil] at h1
  omega

/-- Outside a network run a VM that has stopped is put back with the answer to its RUN (log 7). -/
theorem State.commitVm_of_stopped {vm : Vm} (hn : s.netState ≠ .turnRun) (hv : vm.state ≠ .running) :
    s.commitVm k vm = (s.setVm k vm).answer (.ran vm.state) :=
  if_neg (by simp [hn, hv])

theorem step_of_turnCollect (hsilent : s.HostSilent) (hn : s.netState = .turnCollect) :
    step s = .next s.collect := by
  have ha : s.active = none := by simp [State.active, hn]
  rw [step_of_no_active hsilent ha, State.orchestrate, hn]

theorem step_of_turnSend (hsilent : s.HostSilent) (hn : s.netState = .turnSend) : step s = .next s.send := by
  have ha : s.active = none := by simp [State.active, hn]
  rw [step_of_no_active hsilent ha, State.orchestrate, hn]

/-- The two steps after a fault in a turn's run: the run ends, and the collect carries the fault up (rules
R100 and R101). -/
theorem run_of_faulted (hsilent : s.HostSilent) (hn : s.netState = .turnRun) (hf : (s.vm s.turn).state = .faulted) :
    Host.Core.run Sys2Proof.core 2 s = .next (s.endRun.failNetwork
      ⟨(s.vm s.turn).err.kind, (s.vm s.turn).err.address, (s.vm s.turn).err.word, s.turn⟩) := by
  have hend : step s = .next s.endRun := (runStepsOnlyTheVisitedVm s hsilent hn).2 (by simp [hf])
  have hcollect : step s.endRun = .next s.endRun.collect := step_of_turnCollect hsilent rfl
  rw [run_succ _ hend, run_succ _ hcollect, State.collect_of_faulted (s := s.endRun) hf]
  rfl

/-- A turn of a VM with no memory ends the network run with the fault of its fetch. -/
theorem run_turn_of_empty_memory (hsilent : s.HostSilent) (hn : s.netState = .turnRun)
    (hr : (s.vm s.turn).state = .running) (hmem : (s.vm s.turn).mem = []) :
    ∃ t : State, Host.Core.run Sys2Proof.core 3 s = .next t ∧ (t.vm s.turn).state = .faulted ∧
      t.netState = .error ∧ t.netErr = ⟨.outOfBounds, (s.vm s.turn).ip, 0, s.turn⟩ := by
  have ha := State.active_of_turnRun hn hr
  have hfault := step_of_empty_memory hsilent ha hmem
  rw [State.commitVm_of_turnRun _ _ hn] at hfault
  have hvm := State.vm_setVm_self s s.turn ((s.vm s.turn).raise (.outOfBounds (s.vm s.turn).ip)) (State.active_lt ha)
  have hrest := run_of_faulted (s := s.setVm s.turn _) hsilent hn (congrArg Vm.state hvm)
  rw [State.setVm_turn, hvm] at hrest
  exact ⟨_, (run_succ 2 hfault).trans hrest, congrArg Vm.state hvm, rfl, rfl⟩

theorem State.lt_length_of_ready {i : Nat} (h : (s.vm i).state = .ready) : i < s.vms.length := by
  by_contra hi
  rw [State.vm_of_length_le s i (Nat.le_of_not_lt hi)] at h
  cases h

/-- RUN of a standalone VM with no memory, and the one step that ends it. -/
theorem run_standalone_of_empty_memory (hm : s.hostMoves = [.transaction .run]) (hmode : s.blkMode = .standalone)
    (hn : s.netState = .idle) (hready : (s.vm 0).state = .ready) (hmem : (s.vm 0).mem = []) :
    ∃ t : State, Host.Core.run Sys2Proof.core 2 s = .next t ∧
      t.vm 0 = (s.vm 0).raise (.outOfBounds (s.vm 0).ip) ∧ t.hostAnswers = s.hostAnswers ++ [.ran .faulted] := by
  have hrun := (runResumesOrReturnsAtOnce s [] hm hmode).1 hn (by simp [hready])
  have hvm := State.vm_setVm_self s 0 { s.vm 0 with state := .running } (State.lt_length_of_ready hready)
  generalize hs' : { s.setVm 0 { s.vm 0 with state := .running } with hostMoves := [] } = s' at hrun
  have hvm' : s'.vm 0 = { s.vm 0 with state := .running } := by rw [← hs', State.vm_with_hostMoves, hvm]
  have hidle : s'.netState = .idle := by rw [← hs']; exact hn
  have ha : s'.active = some 0 :=
    State.active_of_standalone hidle (by rw [← hs']; exact hmode) (by rw [hvm'])
  have hfault := step_of_empty_memory (by rw [← hs']) ha (by rw [hvm']; exact hmem)
  rw [hvm'] at hfault
  refine ⟨_, (run_succ 1 hrun).trans (run_succ 0 hfault), State.commitVm_vm_self ha _, ?_⟩
  rw [State.commitVm_of_stopped (by simp [hidle]) (by simp), ← hs']
  rfl

/-- A send of the signal, where there is room for it, makes a fresh VM `Running` (rule R99). -/
theorem State.send_of_room (hsig : s.sigValid = true) (hq : queueFull s.params.qCap (s.vm s.turn).inQ = false)
    (hready : (s.vm s.turn).state = .ready) :
    s.send.hostMoves = s.hostMoves ∧ s.send.netState = .turnRun ∧ s.send.turn = s.turn ∧
      s.send.vm s.turn =
        { s.vm s.turn with inQ := push (s.vm s.turn).inQ s.signal, state := .running } := by
  have hcall : { s.vm s.turn with inQ := push (s.vm s.turn).inQ s.signal }.call =
      { s.vm s.turn with inQ := push (s.vm s.turn).inQ s.signal, state := .running } := by
    simp [Vm.call, hready]
  have hsend : s.send = { s.setVm s.turn { s.vm s.turn with inQ := push (s.vm s.turn).inQ s.signal }.call with
      netState := .turnRun } := by
    unfold State.send
    simp [hsig, hq]
  rw [hsend, hcall]
  exact ⟨rfl, rfl, rfl, State.vm_setVm_self _ _ _ (State.lt_length_of_ready hready)⟩

/-- The first turn of a network whose VM has no memory. -/
theorem run_network_of_empty_memory (hsilent : s.HostSilent) (hn : s.netState = .turnSend)
    (hsig : s.sigValid = true) (hq : queueFull s.params.qCap (s.vm s.turn).inQ = false)
    (hready : (s.vm s.turn).state = .ready) (hmem : (s.vm s.turn).mem = []) :
    ∃ t : State, Host.Core.run Sys2Proof.core 4 s = .next t ∧ (t.vm s.turn).state = .faulted ∧
      t.netState = .error ∧ t.netErr = ⟨.outOfBounds, (s.vm s.turn).ip, 0, s.turn⟩ := by
  obtain ⟨hmoves, hrun, hturn, hvm⟩ := State.send_of_room hsig hq hready
  rw [run_succ 3 (step_of_turnSend hsilent hn)]
  have hturnRun := run_turn_of_empty_memory (s := s.send) (hmoves.trans hsilent) hrun
  rw [hturn, hvm] at hturnRun
  exact hturnRun rfl hmem

/-- A queue of one value has room (rule R10). -/
theorem queueFull_singleton {cap : Option Nat} (h : ∀ c ∈ cap, 2 ≤ c) (v : Int) : queueFull cap [v] = false := by
  cases cap with
  | none => rfl
  | some c => exact decide_eq_false (Nat.not_le.2 (h c rfl))

theorem State.doStart_hostMoves : s.doStart.hostMoves = s.hostMoves := by
  unfold State.doStart
  split <;> rfl

/-- Settles O56: START leaves a `VM[0]` with no memory, which RUN or the first send makes `Running`. -/
theorem emptyImageFaultsAtZero : Obligations.EmptyImageFaultsAtZero := by
  intro s hlegal hprog hb
  obtain ⟨hn, -, hcap⟩ := hlegal
  refine ⟨fun hmode hm => ?_, fun hmode hm => ?_⟩
  · obtain ⟨s', hstart, hanswers, hidle, -, hvm, -, -, hmode'⟩ := (startBuildsStandaloneVm s _ hm hb).1 hmode
    have hmoves : s'.hostMoves = [.transaction .run] := by
      cases hstart.symm.trans (step_start hm hb (by simp [hmode]))
      exact State.doStart_hostMoves
    replace hvm := hvm hn
    rw [hprog] at hvm
    have hrun := run_standalone_of_empty_memory hmoves hmode' hidle
    rw [hvm, hanswers] at hrun
    obtain ⟨t, hrun, hfault, hans⟩ := hrun rfl rfl
    exact ⟨t, (run_succ 2 hstart).trans hrun, hfault, by rw [hans, List.append_assoc]; rfl⟩
  · obtain ⟨s', hstart, -, hmoves, -, hvm, -, hsig, hturn, -, -, -, hsend, hparams, -⟩ :=
      startLaunchesNetwork s _ hm hmode hb
    replace hvm := hvm 0 hn
    rw [hprog] at hvm
    rw [run_succ 4 hstart]
    have hrun := run_network_of_empty_memory hmoves hsend hsig
    rw [hturn, hvm, hparams] at hrun
    exact hrun (queueFull_singleton hcap _) rfl rfl

end Sys2Proof.Machine

/-! # Proofs of the arithmetic family (`41_arithmetic.md`)

An instruction of the shape of ADD, MUL, LT and EQ whose parameters resolve does what its computation says: it
stores the result and goes on, or raises the computation's fault. -/

namespace Sys2Proof.Machine

variable {s : State} {k : Nat} {i : Instr} {vm' : Vm}

/-- An instruction whose effect succeeds with the VM in the same lifecycle state puts the VM back with no
answer to the host. -/
theorem exec_of_effect_ok (ha : s.active = some k) (h : effectOf i s.params (s.vm k) = .ok vm')
    (hs : vm'.state = (s.vm k).state) : exec i s = .next (s.setVm k vm') := by
  rw [exec_of_active ha, h]
  exact congrArg _ (State.commitVm_of_active ha hs)

section Resolved

variable {m0 m1 : Mode} {p0 p1 p2 a b t r : Int} {f : Int → Int → Except VmErr Int}
  (ha : s.active = some k) (hi : effectOf i s.params (s.vm k) = storeResultEffect m0 m1 p0 p1 p2 f (s.vm k))
  (h0 : operand (s.vm k).mem m0 p0 = .ok a) (h1 : operand (s.vm k).mem m1 p1 = .ok b)
  (h2 : target (s.vm k).mem p2 = .ok t)

include ha hi h0 h1 h2

/-- A computation that succeeds is stored, and `ip` advances by 4. -/
theorem exec_of_computed (hf : f a b = .ok r) : exec i s = .next (s.setVm k ((s.vm k).storeAndAdvance t r 4)) :=
  exec_of_effect_ok ha (hi.trans ((storeResultEffect_ok ..).2 ⟨a, b, t, r, h0, h1, h2, hf, rfl⟩)) rfl

/-- A computation that faults is the fault of the instruction, since its parameters resolve. -/
theorem exec_of_compute_error {e : VmErr} (hf : f a b = .error e) :
    exec i s = .next (s.commitVm k ((s.vm k).raise e)) :=
  exec_of_effect_error ha (hi.trans ((storeResultEffect_error ..).2 (.inr ⟨a, b, t, h0, h1, h2, hf⟩)))

/-- An exact result is stored when it is representable, and is an overflow otherwise (rule R86). -/
theorem exec_of_checkedResult (hf : f a b = checkedResult s.params.width (s.vm k).ip (encodeWord i) r) :
    (s.params.width.Representable r → exec i s = .next (s.setVm k ((s.vm k).storeAndAdvance t r 4))) ∧
    (¬ s.params.width.Representable r →
      exec i s = .next (s.commitVm k ((s.vm k).raise ⟨.overflow, (s.vm k).ip, encodeWord i⟩))) :=
  ⟨fun hr => exec_of_computed ha hi h0 h1 h2 (hf.trans (checkedResult_of_representable hr _ _)),
    fun hr => exec_of_compute_error ha hi h0 h1 h2 (hf.trans ((checkedResult_error ..).2 ⟨hr, rfl⟩))⟩

end Resolved

/-- Settles O11: ADD's computation is the checked sum. -/
theorem addStoresExactSum : Obligations.AddStoresExactSum := by
  intro s k m0 m1 m2 p0 p1 p2 a b t ha h0 h1 h2
  exact exec_of_checkedResult ha (effectOf_add ..) h0 h1 h2 rfl

/-- Settles O12: MUL's computation is the checked product. -/
theorem mulStoresExactProduct : Obligations.MulStoresExactProduct := by
  intro s k m0 m1 m2 p0 p1 p2 a b t ha h0 h1 h2
  exact exec_of_checkedResult ha (effectOf_mul ..) h0 h1 h2 rfl

/-- Settles O13: a comparison's computation always succeeds, with its truth word. -/
theorem comparisonsStoreOneOrZero : Obligations.ComparisonsStoreOneOrZero := by
  intro s k m0 m1 m2 p0 p1 p2 a b t ha h0 h1 h2
  exact ⟨exec_of_computed ha (effectOf_lt ..) h0 h1 h2 rfl, exec_of_computed ha (effectOf_eq ..) h0 h1 h2 rfl⟩

end Sys2Proof.Machine

/-! # Proofs of the input and output family (`42_io.md`)

What IN does in each of its three cases: a target outside memory, an empty queue and a value waiting. -/

namespace Sys2Proof.Machine

variable {vm : Vm} {p0 t v : Int} {rest : List Int} {e : VmErr}

theorem inEffect_of_target_error (h : target vm.mem p0 = .error e) : inEffect p0 vm = .error e := by
  unfold inEffect
  rw [h]
  rfl

theorem inEffect_of_empty (h : target vm.mem p0 = .ok t) (hq : vm.inQ = []) :
    inEffect p0 vm = .ok { vm with state := .awaitingInput } := by
  unfold inEffect
  rw [h, hq]
  rfl

theorem inEffect_of_cons (h : target vm.mem p0 = .ok t) (hq : vm.inQ = v :: rest) :
    inEffect p0 vm = .ok { vm.storeAndAdvance t v 2 with inQ := rest } := by
  unfold inEffect
  rw [h, hq]
  rfl

/-- Settles O14: the VM that has taken its value is still `Running`, so it is put back with no answer. -/
theorem inStoresOldestInput : Obligations.InStoresOldestInput := by
  intro s k m0 p0 t v rest ha ht hq
  exact exec_of_effect_ok ha (inEffect_of_cons ht hq) rfl

/-- Settles O15: the fault is that of the target, which the queue does not enter. -/
theorem inWaitsOnEmptyQueue : Obligations.InWaitsOnEmptyQueue := by
  intro s k m0 p0 ha
  refine ⟨fun hq hb => ?_, fun hb => ?_⟩
  · rw [exec_of_active ha, effectOf_inp, inEffect_of_empty (target_of_inBounds _ _ hb) hq]
    rfl
  · exact exec_of_effect_error ha (inEffect_of_target_error (target_of_not_inBounds hb))

end Sys2Proof.Machine

/-! # Proofs of the control family (`43_control.md`)

What JT and JF do once their operands resolve, and HALT at any readable `ip`. -/

namespace Sys2Proof.Machine

variable {s : State} {k : Nat} {i : Instr} {m0 m1 : Mode} {p0 p1 c t : Int} {taken : Int → Bool}

/-- A jump whose operands resolve writes `ip` and nothing else: no check of the new `ip`, and no answer to
the host, since the VM stays `Running` (rule R93). -/
theorem exec_of_jump (ha : s.active = some k)
    (hi : effectOf i s.params (s.vm k) = jumpEffect m0 m1 p0 p1 taken (s.vm k))
    (h0 : operand (s.vm k).mem m0 p0 = .ok c) (h1 : operand (s.vm k).mem m1 p1 = .ok t) :
    exec i s = .next (s.setVm k { s.vm k with ip := if taken c then t else (s.vm k).ip + 3 }) :=
  exec_of_effect_ok ha (hi.trans ((jumpEffect_ok ..).2 ⟨c, t, h0, h1, rfl⟩)) rfl

/-- Settles O17: JT and JF are the one jump, with opposite conditions. -/
theorem jumpsWriteResolvedTarget : Obligations.JumpsWriteResolvedTarget := by
  intro s k m0 m1 p0 p1 c t ha h0 h1
  constructor
  · simpa only [decide_eq_true_eq] using exec_of_jump ha (effectOf_jt ..) h0 h1
  · simpa only [decide_eq_true_eq] using exec_of_jump ha (effectOf_jf ..) h0 h1

theorem exec_halt (ha : s.active = some k) :
    exec .halt s = .next (s.commitVm k { s.vm k with state := .halted }) := by
  rw [exec_of_active ha, effectOf_halt]
  rfl

/-- Settles O19: HALT has no parameter, so a 99 decodes whatever words follow it, or none, and the step
executes HALT. -/
theorem haltKeepsEverythingElse : Obligations.HaltKeepsEverythingElse := by
  refine ⟨fun s k ha => exec_halt ha, fun s k hsilent ha hread => ?_⟩
  obtain ⟨hb, -, -⟩ := Memory.read_ok _ _ hread
  have hdecode : decode ((s.vm k).mem.drop (s.vm k).ip.toNat) =
      .ok (.halt, (s.vm k).mem.drop ((s.vm k).ip.toNat + 1)) := by
    rw [Memory.drop_of_read hread]
    exact decode_encode_append .halt _
  obtain ⟨hstep, -⟩ := stepRunsDecodedInstruction s k .halt _ ha hb hdecode
  rw [hstep hsilent, exec_halt ha]

end Sys2Proof.Machine

/-! # Proofs of the orchestrator family (`44_orchestrator.md`)

The orchestrator's actions state by state, what it leaves unchanged, the refusals of the host port, and the
network run as the spec's sequential procedure. -/

/-! ## The actions of the orchestrator (rules R99 and R101 to R103) -/

namespace Sys2Proof.Machine

variable {s t : State}

/-- The signal is to be sent into a full queue (rule R99). -/
abbrev State.SendBlocked (s : State) : Prop :=
  s.sigValid = true ∧ queueFull s.params.qCap (s.vm s.turn).inQ = true

/-- The visited VM with the signal sent, when there is one to forward (rule R99). -/
def State.sent (s : State) : Vm :=
  if s.sigValid then { s.vm s.turn with inQ := push (s.vm s.turn).inQ s.signal } else s.vm s.turn

theorem State.send_of_blocked (h : s.SendBlocked) :
    s.send = s.failNetwork ⟨.queueOverflow, (s.vm s.turn).ip, 0, s.turn⟩ :=
  if_pos h

theorem State.send_of_not_blocked (h : ¬ s.SendBlocked) :
    s.send = { s.setVm s.turn s.sent.call with netState := .turnRun } :=
  if_neg h

/-- A `run()` call, its three lifecycle states written as a list. -/
theorem Vm.call_eq_resume (v : Vm) : v.call = { v with
    state := if v.state ∈ [VmState.ready, .awaitingInput, .yielded] then .running else v.state } := by
  rw [Vm.call_eq, Vm.call_state]
  simp

/-- Settles O40: a send is blocked, or calls the VM with the signal sent or with its queue as it is. -/
theorem sendForwardsSignal : Obligations.SendForwardsSignal := by
  intro s hsilent hn
  rw [step_of_turnSend hsilent hn]
  refine ⟨fun hsig hfull => ?_, fun hsig hroom => ?_, fun hsig => ?_⟩
  · rw [State.send_of_blocked ⟨hsig, hfull⟩]
    rfl
  · rw [State.send_of_not_blocked (by simp [hroom]), State.sent, if_pos hsig, Vm.call_eq_resume]
    rfl
  · rw [State.send_of_not_blocked (by simp [hsig]), State.sent, if_neg (by simp [hsig]), Vm.call_eq_resume]

/-- Settles O42: the four outcomes of a collect, two of them followed by the next turn or the end of the
pass. -/
theorem collectTakesOneOutput : Obligations.CollectTakesOneOutput := by
  intro s hsilent hn
  rw [step_of_turnCollect hsilent hn]
  refine ⟨fun hf => ?_, fun x rest hf hq => ?_, fun hh hq => ?_, fun hf hh hq => ?_⟩
  · rw [State.collect_of_faulted hf]
    rfl
  · rw [State.collect_of_output hf hq]
    exact ⟨fun hlt => congrArg _ (State.nextTurn_of_lt hlt), fun hlt => congrArg _ (State.nextTurn_of_not_lt hlt)⟩
  · rw [State.collect_of_drained hh hq]
    exact ⟨fun hlt => congrArg _ (State.nextTurn_of_lt hlt), fun hlt => congrArg _ (State.nextTurn_of_not_lt hlt)⟩
  · rw [State.collect_of_starved hf hh hq]
    rfl

theorem step_of_passEnd (hsilent : s.HostSilent) (hn : s.netState = .passEnd) : step s = .next s.passEnd := by
  have ha : s.active = none := by simp [State.active, hn]
  rw [step_of_no_active hsilent ha, State.orchestrate, hn]

/-- Settles O43: the two branches of the end of a pass. -/
theorem passEndStopsOrRepeats : Obligations.PassEndStopsOrRepeats := by
  intro s hsilent hn
  rw [step_of_passEnd hsilent hn]
  exact ⟨fun hstop => congrArg _ (if_pos hstop), fun hrepeat => congrArg _ (if_neg hrepeat)⟩

/-- Outside a network run in progress the orchestrator has no action (rule R103). -/
theorem State.orchestrate_of_not_netBusy (h : s.netBusy = false) : s.orchestrate = s := by
  unfold State.orchestrate
  cases hn : s.netState
  case turnSend | turnRun | turnCollect | passEnd => simp [State.netBusy, hn] at h
  case idle | done | error => rfl

theorem State.netBusy_of_ended (h : s.Ended) : s.netBusy = false := by
  rcases h with h | h <;> simp [State.netBusy, h]

/-- Settles O44: no VM is active, and the orchestrator has no action. -/
theorem finalStatesHaveNoStep : Obligations.FinalStatesHaveNoStep := by
  intro s hsilent
  refine ⟨fun hended => ?_, fun _ hb => ?_⟩
  · rw [step_of_no_active hsilent (State.active_of_ended hended),
      State.orchestrate_of_not_netBusy (State.netBusy_of_ended hended)]
  · obtain ⟨hnet, -⟩ := State.of_not_busy hb
    rw [step_of_no_active hsilent (State.active_of_not_busy hb), State.orchestrate_of_not_netBusy hnet]

/-! ### Errors of the network, and progress (rules R109 and R111) -/

theorem State.nextTurn_netState : s.nextTurn.netState = .turnSend ∨ s.nextTurn.netState = .passEnd := by
  unfold State.nextTurn
  split
  · exact .inl rfl
  · exact .inr rfl

theorem State.send_netState : s.send.netState = .error ∨
    (s.send.netState = .turnRun ∧ s.send.netErr = s.netErr) := by
  by_cases h : s.SendBlocked
  · rw [State.send_of_blocked h]
    exact .inl rfl
  · rw [State.send_of_not_blocked h]
    exact .inr ⟨rfl, rfl⟩

theorem State.collect_netState : s.collect.netState = .error ∨
    ((s.collect.netState = .turnSend ∨ s.collect.netState = .passEnd) ∧ s.collect.netErr = s.netErr) := by
  rcases s.collect_cases with ⟨-, h⟩ | ⟨-, x, rest, -, h⟩ | ⟨-, -, h⟩ | ⟨-, -, -, h⟩ <;> rw [h]
  · exact .inl rfl
  · exact .inr ⟨State.nextTurn_netState, State.nextTurn_netErr _⟩
  · exact .inr ⟨State.nextTurn_netState, State.nextTurn_netErr _⟩
  · exact .inl rfl

theorem State.passEnd_netState :
    (s.passEnd.netState = .done ∨ s.passEnd.netState = .turnSend) ∧ s.passEnd.netErr = s.netErr := by
  unfold State.passEnd
  split
  · exact ⟨.inl rfl, rfl⟩
  · exact ⟨.inr rfl, rfl⟩

theorem State.orchestrate_netErr (h : s.orchestrate.netErr ≠ s.netErr) :
    (s.netState = .turnSend ∨ s.netState = .turnCollect) ∧ s.orchestrate.netState = .error := by
  unfold State.orchestrate at h ⊢
  cases hn : s.netState <;> rw [hn] at h <;> dsimp only at h ⊢
  case turnSend => exact ⟨.inl rfl, State.send_netState.resolve_right fun hrun => h hrun.2⟩
  case turnCollect => exact ⟨.inr rfl, State.collect_netState.resolve_right fun hnext => h hnext.2⟩
  case passEnd => exact absurd State.passEnd_netState.2 h
  case turnRun | idle | done | error => exact absurd rfl h

/-- Settles O38: an instruction's step leaves `net_err`, and so do all actions but a failing send or
collect. -/
theorem onlySendAndCollectRaiseNetworkErrors : Obligations.OnlySendAndCollectRaiseNetworkErrors := by
  intro s t hsilent ht herr
  rw [step_of_hostSilent hsilent] at ht
  rcases s.blockStep_cases with ⟨k, -, hs⟩ | ⟨-, hs⟩ <;> cases hs.symm.trans ht
  · exact absurd (s.onlyVm_commitVm k _).block.netErr herr
  · exact State.orchestrate_netErr herr

/-- During a network run every action of the orchestrator leaves its state (rule R111). -/
theorem State.orchestrate_netState_ne (hb : s.netBusy = true) : s.orchestrate.netState ≠ s.netState := by
  unfold State.orchestrate
  cases hn : s.netState <;> dsimp only
  case turnSend => rcases s.send_netState with h | ⟨h, -⟩ <;> simp [h]
  case turnRun => simp
  case turnCollect => rcases s.collect_netState with h | ⟨h | h, -⟩ <;> simp [h]
  case passEnd => rcases s.passEnd_netState with ⟨h | h, -⟩ <;> simp [h]
  case idle | done | error => simp [State.netBusy, hn] at hb

theorem State.orchestrate_hostMoves : s.orchestrate.hostMoves = s.hostMoves :=
  (congrArg State.hostMoves (State.orchestrate_withMoves (s := s) (moves := s.hostMoves)) :)

/-- A network run in which the visited VM has stopped, or is not to run, has no active VM. -/
theorem State.active_of_netBusy (hb : s.netBusy = true)
    (hr : s.netState = .turnRun → (s.vm s.turn).state ≠ .running) : s.active = none := by
  cases ha : s.active with
  | none => rfl
  | some k =>
    rcases State.active_cases ha with ⟨hn, rfl⟩ | ⟨hn, -, -⟩
    · exact absurd (State.active_running ha) (hr hn)
    · simp [State.netBusy, hn] at hb

/-- Settles O45: no VM is active, so the step is the orchestrator's. -/
theorem orchestratorNeverWaits : Obligations.OrchestratorNeverWaits := by
  intro s hsilent hb hr
  exact ⟨_, step_of_no_active hsilent (State.active_of_netBusy hb hr), State.orchestrate_netState_ne hb,
    State.orchestrate_hostMoves.trans hsilent⟩

end Sys2Proof.Machine

/-! ## Refused transactions, and the VMs of a run that has ended (rules R103, R112 and R123) -/

namespace Sys2Proof.Machine

variable {s t : State} {tx : Txn}

/-- A PUSH, RUN or POP that is allowed has passed the precondition the three share. -/
theorem State.standaloneRefusal_of_allowed (htx : (∃ v, tx = .push v) ∨ tx = .run ∨ tx = .pop)
    (h : s.refusal tx = none) : s.standaloneRefusal tx = none := by
  rcases htx with ⟨v, rfl⟩ | rfl | rfl
  · have hv : s.params.width.Representable v := of_decide_eq_true (State.wellTyped_of_refusal_none h)
    exact (Option.or_eq_none_iff.1 (State.refusal_push hv ▸ h)).1
  · exact (Option.or_eq_none_iff.1 h).1
  · exact h

theorem State.usesVm_eq_true (h : s.usesVm tx = true) : (∃ v, tx = .push v) ∨ tx = .run ∨ tx = .pop := by
  cases tx <;> simp_all [State.usesVm]

/-- Outside `IDLE` a transaction that would change `VM[0]` is refused (log 9). -/
theorem State.refusal_ne_none_of_usesVm (hn : s.netState ≠ .idle) (huses : s.usesVm tx = true) :
    s.refusal tx ≠ none := fun h => by
  obtain ⟨-, -, hidle⟩ := State.standaloneRefusal_eq_none.1
    (State.standaloneRefusal_of_allowed (State.usesVm_eq_true huses) h)
  exact hn (hidle huses)

theorem State.transact_of_refused {r : HostRefusal} (h : s.refusal tx = some r) :
    s.transact tx = s.answer (.refused r) := by
  unfold State.transact
  rw [h]

theorem State.refusal_memread_none {i : Nat} {a : Int} (h : s.refusal (.memread i a) = none) :
    (s.vm i).state ≠ .absent ∧ (s.vm i).mem.InBounds a := by
  unfold State.refusal at h
  dsimp only at h
  split_ifs at h with _ _ habsent hb
  exact ⟨habsent, hb⟩

/-- Settles O48: each refusal is the failure of what an allowed transaction satisfies. -/
theorem refusedTransactionChangesNothing : Obligations.RefusedTransactionChangesNothing := by
  simp only [Obligations.RefusedTransactionChangesNothing, ← Option.ne_none_iff_exists']
  refine ⟨fun s tx rest r hm href => ?_, fun s v tx htx hfail h => ?_, fun s hn => ⟨fun v => ?_, fun hst => ?_,
    fun hq => ?_⟩, fun s v hfull h => ?_, fun s habsent h => ?_, fun s i a hfail h => ?_⟩
  · rw [step_of_transaction hm, State.transact_of_refused (by rwa [State.refusal_with_hostMoves])]
    rfl
  · obtain ⟨hmode, hstopped, -⟩ := State.standaloneRefusal_eq_none.1
      (State.standaloneRefusal_of_allowed (htx.imp_left fun hpush => ⟨v, hpush⟩) h)
    exact hfail.elim (· hmode) hstopped
  · exact State.refusal_ne_none_of_usesVm hn State.usesVm_push
  · have hstopped : (s.vm 0).state ≠ .running := fun hr => by simp [hr] at hst
    exact State.refusal_ne_none_of_usesVm hn ((State.usesVm_run hstopped).2 hst)
  · exact State.refusal_ne_none_of_usesVm hn (State.usesVm_pop.2 hq)
  · obtain ⟨-, -, -, hroom⟩ := State.refusal_push_none h
    simp [hfull] at hroom
  · simpa [habsent] using (Option.or_eq_none_iff.1 h).2
  · obtain ⟨hpresent, hb⟩ := State.refusal_memread_none h
    exact hfail.elim hpresent (· hb)

/-- A transaction that neither destroys, constructs nor changes a VM leaves the VMs and `net_state`. -/
theorem State.perform_of_unused (hreset : tx ≠ .reset) (hstart : tx ≠ .start) (huses : s.usesVm tx = false) :
    (s.perform tx).vms = s.vms ∧ (s.perform tx).netState = s.netState := by
  cases tx with
  | reset => exact absurd rfl hreset
  | start => exact absurd rfl hstart
  | load | configure | memread => exact ⟨rfl, rfl⟩
  | push => cases huses
  | run =>
    rw [State.perform, State.doRun, if_neg (of_decide_eq_false huses)]
    exact ⟨rfl, rfl⟩
  | pop =>
    have hq : (s.vm 0).outQ = [] := by simpa [State.usesVm] using huses
    simp [State.perform, State.doPop, hq]
  | status index =>
    unfold State.perform
    dsimp only
    split <;> exact ⟨rfl, rfl⟩

theorem State.transact_of_ended (hended : s.Ended) (hreset : tx ≠ .reset) (hstart : tx ≠ .start) :
    (s.transact tx).vms = s.vms ∧ (s.transact tx).netState = s.netState := by
  cases href : s.refusal tx with
  | some r =>
    rw [State.transact_of_refused href]
    exact ⟨rfl, rfl⟩
  | none =>
    rw [transact_of_allowed href]
    have hn : s.netState ≠ .idle := by rcases hended with h | h <;> simp [h]
    exact State.perform_of_unused hreset hstart
      (Bool.eq_false_iff.2 fun huses => State.refusal_ne_none_of_usesVm hn huses href)

theorem State.blockStep_of_ended (h : s.Ended) : s.blockStep = .next s := by
  rw [State.blockStep_of_no_active (State.active_of_ended h),
    State.orchestrate_of_not_netBusy (State.netBusy_of_ended h)]

/-- Settles O60: the host's transactions that do not use `VM[0]` leave it, and a block step changes
nothing. -/
theorem endedNetworkKeepsItsVms : Obligations.EndedNetworkKeepsItsVms := by
  intro s t hended ht hreset hstart
  rcases step_cases ht with ⟨tx, rest, hm, rfl⟩ | ⟨moves, hblock⟩
  · exact State.transact_of_ended (s := { s with hostMoves := rest }) hended
      (fun h => hreset rest (h ▸ hm)) (fun h => hstart rest (h ▸ hm))
  · cases (State.blockStep_of_ended (s := { s with hostMoves := moves }) hended).symm.trans hblock
    exact ⟨rfl, rfl⟩

end Sys2Proof.Machine

/-! ## The network run as the spec's sequential procedure (rule R104)

One machine state stands for the procedure's network between two turns.  A turn of the procedure is a send,
the steps of a run, the end of the run and a collect; a list of turns is a pass; the loop's passes follow
from it. -/

namespace Sys2Proof.Machine

variable {s t : State} {fuel : Nat} {net' : RefNet} {r : Except NetErr RefNet}

/-- Some number of steps leads from one state to the other. -/
abbrev State.Reaches : State → State → Prop := Relation.ReflTransGen fun s t => step s = .next t

theorem State.Reaches.exists_run (h : s.Reaches t) : ∃ k, Host.Core.run Sys2Proof.core k s = .next t := by
  induction h using Relation.ReflTransGen.head_induction_on with
  | refl => exact ⟨0, rfl⟩
  | head hstep _ ih =>
    obtain ⟨k, hk⟩ := ih
    exact ⟨k + 1, (run_succ k hstep).trans hk⟩

/-- What the procedure carries from turn to turn, as the machine holds it. -/
def State.toRefNet (s : State) : RefNet := ⟨s.vms, s.signal, s.sigValid, s.passCount⟩

/-- The machine with the network that the procedure carries. -/
def State.withNet (s : State) (net : RefNet) : State :=
  { s with vms := net.vms, signal := net.signal, sigValid := net.sigValid, passCount := net.passCount }

/-! ### A turn -/

/-- The end of a turn of the procedure, after its `run()`. -/
def refCollect (turn : Nat) (net : RefNet) (v : Vm) : Except NetErr RefNet :=
  if v.state = .faulted then .error ⟨v.err.kind, v.err.address, v.err.word, turn⟩
  else match v.outQ with
    | x :: rest =>
      .ok { net with vms := net.vms.set turn { v with outQ := rest }, signal := x, sigValid := true }
    | [] =>
      if v.state = .halted then .ok { net with vms := net.vms.set turn v, sigValid := false }
      else .error ⟨.inputStarved, v.ip, 0, turn⟩

/-- A turn of the procedure, from a machine state: blocked, or a run and the end of the turn. -/
theorem refTurn_toRefNet : refTurn s.params fuel s.turn s.toRefNet =
    if s.SendBlocked then some (.error ⟨.queueOverflow, (s.vm s.turn).ip, 0, s.turn⟩)
    else (refRun s.params fuel s.sent.call).map (refCollect s.turn s.toRefNet) := rfl

/-- How the machine ends a turn that ends so in the procedure (rule R101). -/
def State.endTurn (s : State) : Except NetErr RefNet → State
  | .error e => s.failNetwork e
  | .ok net' => (s.withNet net').nextTurn

theorem State.collect_eq_endTurn : s.collect = s.endTurn (refCollect s.turn s.toRefNet (s.vm s.turn)) := by
  unfold refCollect
  rcases s.collect_cases with ⟨hf, h⟩ | ⟨hf, x, rest, hq, h⟩ | ⟨hh, hq, h⟩ | ⟨hf, hh, hq, h⟩ <;> rw [h]
  · rw [if_pos hf]
    rfl
  · simp only [if_neg hf, hq]
    rfl
  · have hset : s.vms.set s.turn (s.vm s.turn) = s.vms := congrArg State.vms (s.setVm_vm s.turn)
    simp [hh, hq, State.toRefNet, hset, State.endTurn, State.withNet]
  · simp [hf, hh, hq, State.endTurn]

/-- The state of a turn's run with the visited VM at `v` (rule R100). -/
def State.running (s : State) (v : Vm) : State := { s.setVm s.turn v with netState := .turnRun }

theorem State.running_vm (hlt : s.turn < s.vms.length) (v : Vm) : (s.running v).vm s.turn = v :=
  State.vm_setVm_self s s.turn v hlt

theorem step_running (hsilent : s.HostSilent) (hlt : s.turn < s.vms.length) {v : Vm} (hv : v.state = .running) :
    step (s.running v) = .next (s.running (refStep s.params v)) := by
  have hvm := State.running_vm hlt v
  have ha : (s.running v).active = some s.turn :=
    State.active_of_turnRun (s := s.running v) rfl ((congrArg Vm.state hvm).trans hv)
  rw [stepIsReferenceStep (s.running v) s.turn hsilent ha, hvm, State.commitVm_of_turnRun (s.running v) _ rfl]
  simp only [State.running, State.setVm, List.set_set]

/-- The machine runs the visited VM as the procedure does (rules R78 and R100). -/
theorem State.running_reaches (hsilent : s.HostSilent) (hlt : s.turn < s.vms.length) {v v' : Vm}
    (h : refRun s.params fuel v = some v') :
    (s.running v).Reaches (s.running v') ∧ v'.state ≠ .running := by
  induction fuel generalizing v with
  | zero =>
    rw [refRun] at h
    split at h
    · cases h
    · next hv => cases h; exact ⟨.refl, hv⟩
  | succ fuel ih =>
    rw [refRun] at h
    split at h
    · next hv =>
      obtain ⟨hreach, hstop⟩ := ih h
      exact ⟨.head (step_running hsilent hlt hv) hreach, hstop⟩
    · next hv => cases h; exact ⟨.refl, hv⟩

theorem State.endTurn_with_netState (x : NetState) : { s with netState := x }.endTurn r = s.endTurn r := by
  cases r <;> rfl

/-- The end of a turn does not read the visited VM as it was before its run. -/
theorem refCollect_setVm (v w : Vm) :
    refCollect s.turn (s.setVm s.turn v).toRefNet w = refCollect s.turn s.toRefNet w := by
  simp [refCollect, State.toRefNet]

/-- The two steps after a VM has stopped: the end of the run, and the collect. -/
theorem State.running_reaches_endTurn (hsilent : s.HostSilent) (hlt : s.turn < s.vms.length) {v : Vm}
    (hv : v.state ≠ .running) :
    (s.running v).Reaches ((s.setVm s.turn v).endTurn (refCollect s.turn s.toRefNet v)) := by
  have hvm := State.running_vm hlt v
  have hend : step (s.running v) = .next (s.running v).endRun :=
    (runStepsOnlyTheVisitedVm (s.running v) hsilent rfl).2 (fun h => hv ((congrArg Vm.state hvm).symm.trans h))
  have hcollect : step (s.running v).endRun = .next (s.running v).endRun.collect := step_of_turnCollect hsilent rfl
  have hends : (s.running v).endRun.collect = (s.setVm s.turn v).endTurn (refCollect s.turn s.toRefNet v) :=
    calc (s.running v).endRun.collect
      _ = (s.running v).endRun.endTurn (refCollect s.turn (s.setVm s.turn v).toRefNet ((s.running v).vm s.turn)) :=
        State.collect_eq_endTurn
      _ = (s.running v).endRun.endTurn (refCollect s.turn s.toRefNet v) := by rw [hvm, refCollect_setVm]
      _ = (s.setVm s.turn v).endTurn (refCollect s.turn s.toRefNet v) := State.endTurn_with_netState .turnCollect
  exact .head hend (.single (hends ▸ hcollect))

/-- The machine plays a turn of the procedure, and ends it as the procedure does. -/
theorem State.turn_reaches (hsilent : s.HostSilent) (hn : s.netState = .turnSend) (hlt : s.turn < s.vms.length)
    (h : refTurn s.params fuel s.turn s.toRefNet = some r) : ∃ v, s.Reaches ((s.setVm s.turn v).endTurn r) := by
  have hsend := step_of_turnSend hsilent hn
  rw [refTurn_toRefNet] at h
  split at h
  · next hblocked =>
    cases h
    rw [State.send_of_blocked hblocked] at hsend
    exact ⟨s.vm s.turn, .single (by rw [State.setVm_vm]; exact hsend)⟩
  · next hblocked =>
    obtain ⟨v, hrun, rfl⟩ := Option.map_eq_some_iff.1 h
    rw [State.send_of_not_blocked hblocked] at hsend
    obtain ⟨hreach, hstop⟩ := State.running_reaches hsilent hlt hrun
    exact ⟨v, .head hsend (hreach.trans (State.running_reaches_endTurn hsilent hlt hstop))⟩

/-- What a turn keeps of the procedure's network. -/
structure RefNet.SameFrame (a b : RefNet) : Prop where
  vmCount : b.vms.length = a.vms.length
  passCount : b.passCount = a.passCount

theorem refCollect_sameFrame {turn : Nat} {net : RefNet} {v : Vm} (h : refCollect turn net v = .ok net') :
    net.SameFrame net' := by
  unfold refCollect at h
  split at h
  · cases h
  split at h
  · cases h
    exact ⟨List.length_set, rfl⟩
  split at h <;> cases h
  exact ⟨List.length_set, rfl⟩

theorem refTurn_sameFrame (h : refTurn s.params fuel s.turn s.toRefNet = some (.ok net')) :
    s.toRefNet.SameFrame net' := by
  rw [refTurn_toRefNet] at h
  split at h
  · cases h
  · obtain ⟨v, -, hok⟩ := Option.map_eq_some_iff.1 h
    exact refCollect_sameFrame hok

/-! ### A pass -/

/-- Steps of the machine end the network run as the procedure ends it. -/
def State.EndsWith (s : State) (e : RefEnd) (count : Nat) : Prop :=
  ∃ t, s.Reaches t ∧ t.passCount = count ∧
    (∀ v, e = .done v → t.netState = .done ∧ t.result = v) ∧
    (∀ r, e = .error r → t.netState = .error ∧ t.netErr = r ∧ t.result = s.result)

theorem State.EndsWith.of_reaches {e : RefEnd} {count : Nat} (h : s.Reaches t) (hres : t.result = s.result)
    (ht : t.EndsWith e count) : s.EndsWith e count := by
  obtain ⟨u, hu, hcount, hdone, herror⟩ := ht
  exact ⟨u, h.trans hu, hcount, hdone, hres ▸ herror⟩

/-- Steps of the machine end a pass as the procedure ends it. -/
def State.PassEnds (s : State) : Except NetErr RefNet → Prop
  | .error e => s.EndsWith (.error e) s.passCount
  | .ok net' => s.toRefNet.SameFrame net' ∧
      ∃ k, s.Reaches { s.withNet net' with turn := k, netState := .passEnd }

/-- A list of turns: its first turn ends the run, or the others follow it. -/
theorem refTurns_cons {p : Params} {i : Nat} {is : List Nat} {net : RefNet}
    (h : refTurns p fuel (i :: is) net = some r) :
    (∃ e, refTurn p fuel i net = some (.error e) ∧ r = .error e) ∨
    ∃ net', refTurn p fuel i net = some (.ok net') ∧ refTurns p fuel is net' = some r := by
  rw [refTurns] at h
  split at h
  · cases h
  · next e he => cases h; exact .inl ⟨e, he, rfl⟩
  · next net' hok => exact .inr ⟨net', hok, h⟩

/-- A turn that the procedure ends with an error ends the machine's run. -/
theorem State.turn_error (hsilent : s.HostSilent) (hn : s.netState = .turnSend) (hlt : s.turn < s.vms.length)
    {e : NetErr} (h : refTurn s.params fuel s.turn s.toRefNet = some (.error e)) :
    s.EndsWith (.error e) s.passCount := by
  obtain ⟨v, hreach⟩ := State.turn_reaches hsilent hn hlt h
  exact ⟨_, hreach, rfl, nofun, fun r hr => by cases hr; exact ⟨rfl, rfl, rfl⟩⟩

/-- A turn that the procedure does not end with an error takes the machine to the next turn. -/
theorem State.turn_ok (hsilent : s.HostSilent) (hn : s.netState = .turnSend) (hlt : s.turn < s.vms.length)
    (h : refTurn s.params fuel s.turn s.toRefNet = some (.ok net')) :
    s.toRefNet.SameFrame net' ∧ s.Reaches (s.withNet net').nextTurn := by
  obtain ⟨v, hreach⟩ := State.turn_reaches hsilent hn hlt h
  exact ⟨refTurn_sameFrame h, hreach⟩

/-- A pass goes on from the next turn as the procedure's goes on from the network carried there. -/
theorem State.PassEnds.of_nextTurn (hframe : s.toRefNet.SameFrame net')
    (h : s.Reaches { s.withNet net' with turn := s.turn + 1, netState := .turnSend })
    (ht : State.PassEnds { s.withNet net' with turn := s.turn + 1, netState := .turnSend } r) : s.PassEnds r := by
  obtain ⟨hvms, hcount⟩ := hframe
  cases r with
  | error e =>
    have hend : s.EndsWith (.error e) net'.passCount := .of_reaches h rfl ht
    rwa [hcount] at hend
  | ok net2 =>
    obtain ⟨⟨hvms', hcount'⟩, k, hreach⟩ := ht
    exact ⟨⟨hvms'.trans hvms, hcount'.trans hcount⟩, k, h.trans hreach⟩

/-- The rest of a pass, from the turn the machine is at. -/
theorem State.passEnds {s : State} {m : Nat} (hsilent : s.HostSilent) (hn : s.netState = .turnSend)
    (hm : s.turn + 1 + m = s.params.n) (hlen : s.vms.length = s.params.n)
    (h : refTurns s.params fuel (s.turn :: List.range' (s.turn + 1) m) s.toRefNet = some r) : s.PassEnds r := by
  rcases refTurns_cons h with ⟨e, hturn, rfl⟩ | ⟨net', hturn, hrest⟩
  · exact State.turn_error hsilent hn (by omega) hturn
  obtain ⟨hframe, hreach⟩ := State.turn_ok hsilent hn (by omega) hturn
  match m, hrest with
  | 0, hrest =>
    cases hrest
    rw [State.nextTurn_of_not_lt (s := s.withNet net') (Nat.not_lt.2 hm.ge)] at hreach
    exact ⟨hframe, s.turn, hreach⟩
  | m + 1, hrest =>
    rw [State.nextTurn_of_lt (s := s.withNet net') (show s.turn + 1 < s.params.n by omega)] at hreach
    exact .of_nextTurn hframe hreach
      (State.passEnds (m := m) hsilent rfl (show s.turn + 1 + 1 + m = s.params.n by omega)
        (hframe.vmCount.trans hlen) hrest)

/-! ### The loop -/

/-- The machine plays the procedure's passes to the same end. -/
theorem State.endsWith_of_refLoop {passes count : Nat} {e : RefEnd} (hsilent : s.HostSilent)
    (hn : s.netState = .turnSend) (hturn : s.turn = 0) (hpos : 1 ≤ s.params.n) (hlen : s.vms.length = s.params.n)
    (h : refLoop s.params s.feedback fuel passes s.toRefNet = some (e, count)) : s.EndsWith e count := by
  induction passes generalizing s with
  | zero => cases h
  | succ passes ih =>
    have hrange : List.range s.params.n = s.turn :: List.range' (s.turn + 1) (s.params.n - 1) := by
      rw [hturn, List.range_eq_range', ← List.range'_succ, Nat.sub_add_cancel hpos]
    have hpass : ∀ {r}, refTurns s.params fuel (List.range s.params.n) s.toRefNet = some r → s.PassEnds r :=
      fun hr => State.passEnds hsilent hn (by omega) hlen (hrange ▸ hr)
    rw [refLoop] at h
    split at h
    · cases h
    · next hr => cases h; exact hpass hr
    · next net' hr =>
      obtain ⟨hframe, k, hreach⟩ := hpass hr
      obtain ⟨hdone, hrepeat⟩ :=
        passEndStopsOrRepeats { s.withNet net' with turn := k, netState := .passEnd } hsilent rfl
      split at h
      · next hstop =>
        cases h
        exact ⟨_, hreach.tail (hdone hstop), rfl, fun v hv => by cases hv; exact ⟨rfl, rfl⟩, nofun⟩
      · next hgo =>
        exact .of_reaches (hreach.tail (hrepeat hgo)) rfl (ih hsilent rfl rfl hpos (hframe.vmCount.trans hlen) h)

/-- Settles O46: turn by turn and pass by pass, the machine follows the procedure. -/
theorem networkRunIsReferenceRun : Obligations.NetworkRunIsReferenceRun := by
  intro s fuel passes count e hsilent hn hturn hpos hlen h
  obtain ⟨t, hreach, hend⟩ := State.endsWith_of_refLoop hsilent hn hturn hpos hlen h
  obtain ⟨k, hk⟩ := hreach.exists_run
  exact ⟨k, t, hk, hend⟩

end Sys2Proof.Machine

/-! # Proofs of the host's family (`45_host_and_search.md`)

What the host's transactions make of a VM, and the effect and answer of LOAD, CONFIGURE, PUSH, POP, MEMREAD
and STATUS. -/

/-! ## What a transaction makes of each VM (rules R112 and R123) -/

namespace Sys2Proof.Machine

variable {s : State} {tx : Txn}

/-- What a transaction other than RESET and START can make of a VM: RUN calls it, PUSH appends one value to
its input queue, POP takes the oldest value of its output queue, and any of them can leave it. -/
inductive Vm.HostEffect (vm : Vm) : Txn → Vm → Prop
  | kept (tx : Txn) : vm.HostEffect tx vm
  | called : vm.HostEffect .run vm.call
  | pushed (v : Int) : vm.HostEffect (.push v) { vm with inQ := vm.inQ ++ [v] }
  | popped : vm.HostEffect .pop { vm with outQ := vm.outQ.tail }

/-- Replacing one VM by what the transaction makes of it affects no other. -/
theorem State.hostEffect_setVm {k : Nat} {v : Vm} (h : (s.vm k).HostEffect tx v) (i : Nat) :
    (s.vm i).HostEffect tx ((s.setVm k v).vm i) := by
  rw [State.vm_setVm]
  split
  · next hik => rw [hik.1]; exact h
  · exact .kept _

theorem State.hostEffect_doRun (i : Nat) : (s.vm i).HostEffect .run (s.doRun.vm i) := by
  unfold State.doRun
  dsimp only
  split
  · exact State.hostEffect_setVm .called i
  · exact .kept _

/-- POP of a queue with a value, and of an empty one (rule R122). -/
theorem State.doPop_of_cons {x : Int} {q : List Int} (h : (s.vm 0).outQ = x :: q) :
    s.doPop = (s.setVm 0 { s.vm 0 with outQ := q }).answer (.value x) := by
  unfold State.doPop
  rw [h]

theorem State.doPop_of_nil (h : (s.vm 0).outQ = []) : s.doPop = s.answer .empty := by
  unfold State.doPop
  rw [h]

theorem State.hostEffect_doPop (i : Nat) : (s.vm i).HostEffect .pop (s.doPop.vm i) := by
  cases hq : (s.vm 0).outQ with
  | nil => rw [State.doPop_of_nil hq]; exact .kept _
  | cons x q =>
    rw [State.doPop_of_cons hq, State.answer_vm, show q = (s.vm 0).outQ.tail by rw [hq, List.tail_cons]]
    exact State.hostEffect_setVm .popped i

theorem State.hostEffect_perform (hreset : tx ≠ .reset) (hstart : tx ≠ .start) (i : Nat) :
    (s.vm i).HostEffect tx ((s.perform tx).vm i) := by
  cases tx with
  | reset => exact absurd rfl hreset
  | start => exact absurd rfl hstart
  | load | configure | memread => exact .kept _
  | push v => exact State.hostEffect_setVm (.pushed v) i
  | run => exact State.hostEffect_doRun i
  | pop => exact State.hostEffect_doPop i
  | status index =>
    unfold State.perform
    dsimp only
    split <;> exact .kept _

theorem State.hostEffect_transact (hreset : tx ≠ .reset) (hstart : tx ≠ .start) (i : Nat) :
    (s.vm i).HostEffect tx ((s.transact tx).vm i) := by
  rcases s.transact_cases tx with ⟨r, h⟩ | h <;> rw [h]
  · exact .kept _
  · exact State.hostEffect_perform hreset hstart i

/-- Settles O37: each of the four effects touches the lifecycle state or one queue at most. -/
theorem hostLeavesVmsAlone : Obligations.HostLeavesVmsAlone := by
  intro s s' tx rest i hm ht hreset hstart
  cases (step_of_transaction hm).symm.trans ht
  have heffect := State.hostEffect_transact (s := { s with hostMoves := rest }) hreset hstart i
  rw [State.vm_with_hostMoves] at heffect
  generalize ({ s with hostMoves := rest }.transact tx).vm i = vm' at heffect ⊢
  cases heffect with
  | kept => exact ⟨rfl, rfl, rfl, .inl rfl, .inl rfl, .inl rfl⟩
  | called =>
    exact ⟨Vm.call_mem _, Vm.call_ip _, Vm.call_err _, (Vm.call_mayBecome _).imp_right fun h => ⟨rfl, h⟩,
      .inl (Vm.call_inQ _), .inl (Vm.call_outQ _)⟩
  | pushed v => exact ⟨rfl, rfl, rfl, .inl rfl, .inr ⟨v, rfl, rfl⟩, .inl rfl⟩
  | popped => exact ⟨rfl, rfl, rfl, .inl rfl, .inl rfl, .inr ⟨rfl, rfl⟩⟩

end Sys2Proof.Machine

/-! ## The busy block (rule R113) -/

namespace Sys2Proof.Machine

variable {s : State}

theorem State.netBusy_iff :
    s.netBusy = true ↔ s.netState ∈ [NetState.turnSend, .turnRun, .turnCollect, .passEnd] := by
  unfold State.netBusy
  cases s.netState <;> decide

theorem State.busy_iff : s.busy = true ↔
    s.netState ∈ [NetState.turnSend, .turnRun, .turnCollect, .passEnd] ∨
      (s.blkMode = .standalone ∧ (s.vm 0).state = .running) := by
  rw [State.busy, Bool.or_eq_true, State.netBusy_iff, Bool.and_eq_true, decide_eq_true_iff, decide_eq_true_iff]

theorem State.busy_of_refusal_start_none (h : s.refusal .start = none) : s.busy = false := by
  unfold State.refusal at h
  dsimp only at h
  split_ifs at h with _ hb
  simpa using hb

theorem State.busy_of_refusal_memread_none {i : Nat} {a : Int} (h : s.refusal (.memread i a) = none) :
    s.busy = false := by
  unfold State.refusal at h
  dsimp only at h
  split_ifs at h with _ hb
  simpa using hb

/-- Settles O49: each of the four, when it is allowed, finds a block that is not busy. -/
theorem busyBlockRefuses : Obligations.BusyBlockRefuses := by
  refine fun s => ⟨State.busy_iff, fun hb seq mode fb phase i a tx htx => Option.ne_none_iff_exists'.1 fun h => ?_⟩
  have hfree : s.busy = false := by
    rcases htx with rfl | rfl | rfl | rfl
    · exact State.busy_of_refusal_load_none h
    · exact (State.refusal_configure_none h).1
    · exact State.busy_of_refusal_start_none h
    · exact State.busy_of_refusal_memread_none h
  cases hb.symm.trans hfree

end Sys2Proof.Machine

/-! ## The effect and the answer of a transaction -/

namespace Sys2Proof.Machine

variable {s : State} {tx : Txn} {rest : List HostMove}

/-- A transaction whose precondition holds is performed in its step. -/
theorem step_of_allowed (hm : s.hostMoves = .transaction tx :: rest) (h : s.refusal tx = none) :
    step s = .next ({ s with hostMoves := rest }.perform tx) := by
  rw [step_of_transaction hm, transact_of_allowed (by rwa [State.refusal_with_hostMoves])]

/-- A transaction whose precondition fails is answered with a reason, and nothing else changes. -/
theorem step_of_not_allowed (hm : s.hostMoves = .transaction tx :: rest) (h : s.refusal tx ≠ none) :
    ∃ r, step s = .next { s with hostMoves := rest, hostAnswers := s.hostAnswers ++ [.refused r] } := by
  obtain ⟨r, hr⟩ := Option.ne_none_iff_exists'.1 h
  obtain ⟨hrefused, -⟩ := refusedTransactionChangesNothing
  exact ⟨r, hrefused s tx rest r hm hr⟩

/-! ### LOAD and CONFIGURE (rules R114 and R115) -/

theorem State.refusal_load_of_fits {seq : List Int} (hb : s.busy = false) (hlen : seq.length ≤ s.params.memCap)
    (hwords : AllRepresentable s.params.width seq) : s.refusal (.load seq) = none := by
  have ht : (Txn.load seq).wellTyped s.params = true := List.all_eq_true.2 fun v hv => decide_eq_true (hwords v hv)
  simp [State.refusal, ht, hb, hlen]

theorem State.refusal_configure_of_fits {mode : BlkMode} {fb : Bool} {phase : List Int} (hb : s.busy = false)
    (hlen : phase.length = s.params.n) (hwords : AllRepresentable s.params.width phase) :
    s.refusal (.configure mode fb phase) = none := by
  have ht : (Txn.configure mode fb phase).wellTyped s.params = true :=
    Bool.and_eq_true_iff.2 ⟨decide_eq_true hlen, List.all_eq_true.2 fun v hv => decide_eq_true (hwords v hv)⟩
  rw [State.refusal_configure_of_not_busy hb, if_neg (by simp [ht])]

/-- Settles O50: LOAD is allowed exactly up to `MEM_CAP` words, and a well-typed CONFIGURE always. -/
theorem loadAndConfigureWrite : Obligations.LoadAndConfigureWrite := by
  intro s rest hb
  refine ⟨fun seq hm hlen hwords => ?_, fun seq hm hlong => ?_, fun mode fb phase hm hlen hwords => ?_⟩
  · exact step_of_allowed hm (State.refusal_load_of_fits hb hlen hwords)
  · refine step_of_not_allowed hm fun h => ?_
    obtain ⟨hlen, -⟩ := State.refusal_load_none h
    omega
  · exact step_of_allowed hm (State.refusal_configure_of_fits hb hlen hwords)

/-! ### PUSH and POP (rules R120 and R122) -/

/-- Settles O52: in standalone mode with `VM[0]` stopped, PUSH has room and needs `IDLE`, and POP needs it
only where there is a value to take. -/
theorem pushAppendsAndPopTakesOldest : Obligations.PushAppendsAndPopTakesOldest := by
  intro s rest hmode hstopped
  have hpop : (s.usesVm .pop = true → s.netState = .idle) → s.refusal .pop = none := fun hidle =>
    State.standaloneRefusal_eq_none.2 ⟨hmode, hstopped, hidle⟩
  refine ⟨fun v hm hn hv hroom => ?_, fun v q hm hn hq => ?_, fun hm hq => ?_⟩
  · have hallowed : s.refusal (.push v) = none := by
      rw [State.refusal_push hv, State.standaloneRefusal_eq_none.2 ⟨hmode, hstopped, fun _ => hn⟩,
        Option.none_or, hroom]
      rfl
    exact step_of_allowed hm hallowed
  · rw [step_of_allowed hm (hpop fun _ => hn)]
    exact congrArg _ (State.doPop_of_cons (s := { s with hostMoves := rest }) hq)
  · rw [step_of_allowed hm (hpop fun huses => absurd hq (State.usesVm_pop.1 huses))]
    exact congrArg _ (State.doPop_of_nil (s := { s with hostMoves := rest }) hq)

/-! ### MEMREAD and STATUS (rules R117 and R118) -/

theorem State.refusal_memread_of_inBounds {i : Nat} {a : Int} (hb : s.busy = false)
    (hpresent : (s.vm i).state ≠ .absent) (ha : (s.vm i).mem.InBounds a) : s.refusal (.memread i a) = none := by
  simpa [State.refusal, Txn.wellTyped, hb, hpresent] using ha

theorem State.refusal_status (s : State) (index : Nat) :
    s.refusal (.status index) = if s.statusField index = none then some .noSuchField else none := rfl

theorem State.refusal_status_eq_none {index : Nat} :
    s.refusal (.status index) = none ↔ s.statusField index ≠ none := by
  simp [State.refusal_status]

/-- A STATUS that is performed answers the field. -/
theorem State.perform_status {index : Nat} {v : StatusValue} (h : s.statusField index = some v) :
    s.perform (.status index) = s.answer (.field v) := by
  unfold State.perform
  dsimp only
  rw [h]

/-- Settles O54: an allowed read answers what it reads, and STATUS asks only that the index name a field. -/
theorem readsChangeNothing : Obligations.ReadsChangeNothing := by
  intro s rest
  refine ⟨fun i a x hm hb hpresent hread => ?_, fun index v hm hv => ?_, fun index hm hnone => ?_⟩
  · obtain ⟨ha, rfl, -⟩ := Memory.read_ok _ _ hread
    exact step_of_allowed hm (State.refusal_memread_of_inBounds hb hpresent ha)
  · rw [step_of_allowed hm (State.refusal_status_eq_none.2 (by simp [hv]))]
    exact congrArg _ (State.perform_status (s := { s with hostMoves := rest }) hv)
  · exact step_of_not_allowed hm fun h => State.refusal_status_eq_none.1 h hnone

end Sys2Proof.Machine
